-- ==== Sys2Proof/Word.lean ====
section
/-!
DEFINITION. The fixed-width types of the spec (00_scope R7, R8): the Word, its 4-byte serialization,
the DAC code, the channel mask and the binary64 pattern.
-/

namespace Sys2Proof

/-- One transmitted byte (20_memory R35). -/
abbrev Byte := BitVec 8

/-- The 32-bit command word, WORD_BITS = 32 (00_scope R7). -/
abbrev Word := BitVec 32

/-- The quantizer's result, CODE_BITS = 16 (00_scope R7). -/
abbrev DacCode := BitVec 16

/-- The channel mask, MASK_BITS = 8 (00_scope R7). -/
abbrev ChannelMask := BitVec 8

/-- The MASK operand, a presence vector of SEL_BITS = 16 bits (00_scope R8, 30_encoding R55). -/
abbrev PresenceVector := BitVec 16

/-- A binary64 bit pattern, the QUANTIZE operand (00_scope R8, 30_encoding R54). -/
abbrev F64 := BitVec 64

/-- The four bytes of one Transport write, in transmission order: `b0` is sent first
(20_memory R36, R38). WORD_BYTES = 4: no other length exists. -/
structure Frame where
  b0 : Byte
  b1 : Byte
  b2 : Byte
  b3 : Byte
  deriving DecidableEq, Repr

end Sys2Proof
end

