-- ==== Sys2Proof/Config.lean ====
section
/-!
DEFINITION. The implementation parameters of 00_scope R7 to R9, and the free values the spec leaves
open. A free value has no body, so nothing can be proved about it.
-/

namespace Sys2Proof

/-- What the Transport answers to one `write`: it returns, or it raises IOError (20_memory R38). -/
inductive TransportAnswer where
  | accepts
  | ioError
  deriving DecidableEq, Repr, Inhabited

namespace Config

/-- PREFIX_BITS (00_scope R7). -/
abbrev pfxBits : Nat := 4
/-- CONTROL_BITS (00_scope R7). -/
abbrev controlBits : Nat := 4
/-- ADDRESS_BITS (00_scope R7). -/
abbrev addressBits : Nat := 4
/-- DATA_BITS (00_scope R7). -/
abbrev dataBits : Nat := 16
/-- FEATURE_BITS (00_scope R7). -/
abbrev featureBits : Nat := 4
/-- ENC_PORT_BITS, the width of one ENCODE operand port (00_scope R8, 92_eei_decisions D5). -/
abbrev encPortBits : Nat := 32
/-- The width of all request ports together: op 2, five ENCODE ports of 32, v 64, sel 16
(10_state R22). -/
abbrev requestBits : Nat := 242

/-- CORE_LATENCY, the time from a request to its response: an open parameter that no rule depends on
(00_scope R9, 92_eei_decisions D28). Log 21. -/
opaque coreLatency : Nat

/-- FREE VALUE. The Transport's answer to the n-th write attempted, where no planned answer says
otherwise: the spec leaves open which writes fail (20_memory R38). Log 9. -/
opaque freeTransportAnswer : Nat → TransportAnswer

end Config
end Sys2Proof
end

