-- ==== Sys2Proof/Syntax.lean ====
section
/-!
DEFINITION. The syntax: the core's four operations (spec/opcode_table.json), the request ports
(10_state R22), and the steps of a host program over the core (00_scope R5, 30_encoding R62, R63).
-/

namespace Sys2Proof

/-- A request: the operation select and the operand ports of every operation (10_state R21, R22).
The ENCODE operands are mathematical integers (92_eei_decisions D5). -/
structure Request where
  op : BitVec 2
  pfx : Int
  control : Int
  address : Int
  data : Int
  feature : Int
  v : F64
  sel : PresenceVector
  deriving DecidableEq, Repr

/-- One constructor per row of the opcode table, carrying the operand group its `op` selects
(30_encoding R48, R49). -/
inductive Instr where
  /-- ENCODE, `op` = 0b00 (40_word_encoder R64). -/
  | encode (pfx control address data feature : Int)
  /-- QUANTIZE, `op` = 0b01 (41_quantizer R72). -/
  | quantize (v : F64)
  /-- MASK, `op` = 0b10 (42_channel_mask R79). -/
  | mask (sel : PresenceVector)
  /-- (reserved), `op` = 0b11: no operand is read (30_encoding R49). -/
  | reserved
  deriving DecidableEq, Repr

/-- The five operand ports of ENCODE, for naming the one that broke the host's obligation. -/
inductive EncodePort where
  | pfx
  | control
  | address
  | data
  | feature
  deriving DecidableEq, Repr

/-- An ENCODE operand as a program writes it: an integer, or the result of an earlier line
(30_encoding R62: "a later line may use t as an operand"). Results are numbered in the order of the
responses. Log 13. -/
inductive Operand where
  | int (x : Int)
  | result (t : Nat)
  deriving DecidableEq, Repr

/-- A QUANTIZE operand as a program writes it (30_encoding R62): a decimal literal
`±coefficient · 10^exponent`, which means the nearest binary64, or the bit pattern itself. -/
inductive RealLiteral where
  | decimal (negative : Bool) (coefficient : Nat) (exponent : Int)
  | pattern (bits : F64)
  deriving DecidableEq, Repr

/-- A request as a program writes it: the four forms of 30_encoding R62, and every port given at
once (95_test_vectors X1 to X3). -/
inductive RequestLine where
  | ports (r : Request)
  | encode (pfx control address data feature : Operand)
  | quantize (x : RealLiteral)
  | mask (labels : List String)
  | maskVector (sel : PresenceVector)
  deriving DecidableEq, Repr

/-- What a host step hands to `Transport.write`: four bytes (00_scope R12), the bytes of an earlier
ENCODE result (43_host_compositions R90), or the serialization of an opcode AND-composed with an
earlier MASK result (43_host_compositions R102 to R104). -/
inductive WriteArgument where
  | bytes (f : Frame)
  | result (t : Nat)
  | masked (opcode : Word) (t : Nat)
  deriving DecidableEq, Repr

/-- The eleven public operations of the Device Facade (30_encoding R63). -/
inductive FacadeOp where
  | softwareReset
  | internalReferenceOn
  | clearAllToZero
  | clearAllToMid
  | clearAllToFull
  | writeToRegister (ch : String) (x : F64)
  | writeAndUpdate (ch : String) (x : F64)
  | writeAndUpdateAll (ch : String) (x : F64)
  | updateChannel (ch : String)
  | writeToLdacRegister (chs : List String)
  | powerUpDac (chs : List String)
  deriving DecidableEq, Repr

/-- One call the host makes: a core request, a Registry lookup (10_state R28), a Transport write
(20_memory R38), the construction of a Facade (70_reset_and_hazards R127), or a Facade operation. -/
inductive HostCall where
  | request (line : RequestLine)
  | lookupCommand (name : String)
  | lookupChannel (label : String)
  | write (arg : WriteArgument)
  | construct
  | facade (op : FacadeOp)
  deriving DecidableEq, Repr

/-- One entry of the host's list: a call, or a second call issued while the first is in progress,
which the source leaves undefined (20_memory R47, 93_implementation_defined I1). -/
inductive HostStep where
  | call (c : HostCall)
  | concurrent (first second : HostCall)
  deriving DecidableEq, Repr

end Sys2Proof
end

