-- ==== Sys2Proof/WellFormed.lean ====
section
/-!
DEFINITION. Well-formed instructions and requests: every ENCODE operand stands in the range of its
32-bit two's-complement port, the host's obligation of 40_word_encoder R65.
-/

namespace Sys2Proof

/-- An integer a 32-bit two's-complement port can present: −2^31 to 2^31 − 1 (40_word_encoder R65). -/
def fitsPort (x : Int) : Bool :=
  decide (-2147483648 ≤ x) && decide (x ≤ 2147483647)

/-- An instruction whose operands the ports can present. QUANTIZE and MASK operands are bit patterns
of their port's width, so they always can; the reserved select reads none. -/
def Instr.wellFormed : Instr → Bool
  | .encode pfx control address data feature =>
      fitsPort pfx && fitsPort control && fitsPort address && fitsPort data && fitsPort feature
  | .quantize _ => true
  | .mask _ => true
  | .reserved => true

/-- A request every port of which can be presented, selected or not. -/
def Request.wellFormed (r : Request) : Bool :=
  fitsPort r.pfx && fitsPort r.control && fitsPort r.address && fitsPort r.data
    && fitsPort r.feature

end Sys2Proof
end

