-- ==== Sys2Proof/Decode.lean ====
section
/-!
DEFINITION. The decoder: from a request's ports to the instruction its `op` selects (30_encoding
R48), reading only that operation's operand group (10_state R21); and the encoder back to ports.
The spec gives the ports and their widths but no common bit string for them: the order in which
`Request.toBits` lays them out, `op` lowest, is the model's (DESIGN CHOICE, log 2).
-/

namespace Sys2Proof

/-- Why a request decodes to no instruction: the host presents an ENCODE operand its 32-bit port
cannot carry (40_word_encoder R65, 93_implementation_defined I12). -/
inductive DecodeError where
  | operandBeyondPort (port : EncodePort)
  deriving DecidableEq, Repr

/-- The ENCODE group, each operand checked against its port. -/
def decodeEncode (r : Request) : Except DecodeError Instr :=
  if fitsPort r.pfx = false then .error (.operandBeyondPort .pfx)
  else if fitsPort r.control = false then .error (.operandBeyondPort .control)
  else if fitsPort r.address = false then .error (.operandBeyondPort .address)
  else if fitsPort r.data = false then .error (.operandBeyondPort .data)
  else if fitsPort r.feature = false then .error (.operandBeyondPort .feature)
  else .ok (.encode r.pfx r.control r.address r.data r.feature)

/-- `op` selects the operation; the match is on `op` alone (30_encoding R48, R49). -/
def decode (r : Request) : Except DecodeError Instr :=
  if r.op = 0#2 then decodeEncode r
  else if r.op = 1#2 then .ok (.quantize r.v)
  else if r.op = 2#2 then .ok (.mask r.sel)
  else .ok .reserved

/-- The request a bit string of all the ports stands for: `op` in bits 1:0, then the five ENCODE
ports of 32 bits, `v`, and `sel` on top. -/
def Request.ofBits (b : BitVec Config.requestBits) : Request where
  op := b.extractLsb' 0 2
  pfx := (b.extractLsb' 2 32).toInt
  control := (b.extractLsb' 34 32).toInt
  address := (b.extractLsb' 66 32).toInt
  data := (b.extractLsb' 98 32).toInt
  feature := (b.extractLsb' 130 32).toInt
  v := b.extractLsb' 162 64
  sel := b.extractLsb' 226 16

/-- Decoding a bit string of all the ports: total on every one of the 2^242 strings. -/
def decodeBits (b : BitVec Config.requestBits) : Except DecodeError Instr :=
  decode (Request.ofBits b)

/-- The two's-complement image of one ENCODE operand on its port (92_eei_decisions D5). -/
def portOf (x : Int) : BitVec Config.encPortBits :=
  BitVec.ofInt 32 x

/-- The bit string of a request's ports, the layout `Request.ofBits` reads. -/
def Request.toBits (r : Request) : BitVec Config.requestBits :=
  r.sel ++ r.v ++ portOf r.feature ++ portOf r.data ++ portOf r.address ++ portOf r.control
    ++ portOf r.pfx ++ r.op

/-- The request that presents an instruction: its `op` of 30_encoding R48, its operands on their
ports, and zero on the ports it does not select (which the core ignores, 10_state R21). -/
def Instr.request : Instr → Request
  | .encode pfx control address data feature =>
      ⟨0#2, pfx, control, address, data, feature, 0#64, 0#16⟩
  | .quantize v => ⟨1#2, 0, 0, 0, 0, 0, v, 0#16⟩
  | .mask sel => ⟨2#2, 0, 0, 0, 0, 0, 0#64, sel⟩
  | .reserved => ⟨3#2, 0, 0, 0, 0, 0, 0#64, 0#16⟩

/-- The encoder: the port bits of an instruction. -/
def encode (i : Instr) : BitVec Config.requestBits :=
  i.request.toBits

/-- The port bits a row of the opcode table gives: the low `nbits` bits are those of `w`, every
port bit above them is zero. -/
def tableBits (nbits w : Nat) : BitVec Config.requestBits :=
  BitVec.ofNat 242 (w % 2 ^ nbits)

/-- The instruction the decoder reads from a table word. -/
def decodeTableWord (nbits w : Nat) : Option Instr :=
  match decodeBits (tableBits nbits w) with
  | .ok i => some i
  | .error _ => none

end Sys2Proof
end

