-- ==== Sys2Proof/Machine/State.lean ====
section
/-!
DEFINITION. The state. The core has none of its own (10_state R15); State holds the host's program
and position (R17), the responses given (R23), the Facade's state (R29) and the Transport's history
(R30), and the model's own fields for the Transport's open answers (log 9).
-/

namespace Sys2Proof.Machine

/-- The error classes the core raises (60_exceptions R106). -/
inductive CoreError where
  | rangeError
  | invalidArgument
  | illegalOperation
  deriving DecidableEq, Repr

/-- An error a host caller can see: one of the core's, or the Transport's IOError, which the core
never raises (60_exceptions R111). -/
inductive HostError where
  | core (e : CoreError)
  | ioError
  deriving DecidableEq, Repr

/-- A response (10_state R23). Only the result fields the rule calls defined are there: those of the
selected operation when `err` = OK, and none with an error (92_eei_decisions D15, log 5). -/
inductive Response where
  | encoded (word : Word) (bytes : Frame)
  | code (c : DacCode)
  | mask (m : ChannelMask)
  | error (e : CoreError)
  deriving DecidableEq, Repr

/-- One request the core has answered, with its response. -/
structure Exchange where
  instr : Instr
  response : Response
  deriving DecidableEq, Repr

/-- What a host call other than a bare request gave its caller: a plain return, a Registry code
(10_state R28), or a raised error. -/
inductive Report where
  | returned
  | value (code : BitVec 4)
  | raised (e : HostError)
  deriving DecidableEq, Repr

/-- `facade_state` (10_state R29). -/
inductive FacadeState where
  | uninitialized
  | initialized
  deriving DecidableEq, Repr

/-- The whole machine: the core (no state), its host and the Transport. -/
structure State where
  /-- The host's list of steps (10_state R17). -/
  program : List HostStep
  /-- The index of the next entry of the list (10_state R17). -/
  position : Nat
  /-- The requests answered so far, oldest first; the last one's response is the response port
  (10_state R23). No core operation reads it (10_state R18). -/
  exchanges : List Exchange
  /-- `facade_state` (10_state R29). -/
  facade : FacadeState
  /-- `transport_log` (10_state R30), oldest first. -/
  transportLog : List Frame
  /-- What the last host call gave its caller; none when it was a request (log 20). -/
  report : Option Report
  /-- MODEL FIELD: the Transport's coming answers, one per write (log 9). -/
  transportPlan : List TransportAnswer
  /-- MODEL FIELD: writes attempted so far, the argument of the free answer (log 9). -/
  writeAttempts : Nat
  deriving DecidableEq, Repr

/-- Why the machine stops with a fault. -/
inductive Fault where
  /-- Raised by `step` when the host's list has no next entry: nothing is presented to the core.
  Safe: the machine stops where the hardware waits (log 3). -/
  | noHostStep
  deriving DecidableEq, Repr

/-- Why a step has no meaning. No core operation raises one. -/
inductive Refusal where
  /-- Raised by an arm of `exec` for an instruction without a meaning; no arm does. Safe. -/
  | notModelled (mnemonic : String)
  /-- Raised by a host step that issues a second call while one is in progress: "unsupported and
  left undefined" (20_memory R47). Safe (log 7). -/
  | concurrentInvocation
  /-- Raised by a Facade operation while `facade_state` = Uninitialized: no such operation is
  accepted (70_reset_and_hazards R129). Safe (log 8). -/
  | facadeUninitialized
  /-- Raised by a request whose selected ENCODE operand its port cannot carry: a broken host
  obligation (40_word_encoder R65, 93_implementation_defined I12). Safe (log 6). -/
  | operandBeyondPort (port : EncodePort)
  /-- Raised by a host step that reads a result field that is not defined: a model must not read it
  (10_state R23). Safe (log 14). -/
  | undefinedResult (t : Nat)
  deriving DecidableEq, Repr

/-- The machine at the start (10_state R31): no response yet, `facade_state` Uninitialized, an empty
`transport_log`. The empty program, position 0, no report and the empty plan are the model's
(DESIGN CHOICE, logs 1, 9, 20). -/
def State.reset : State where
  program := []
  position := 0
  exchanges := []
  facade := .uninitialized
  transportLog := []
  report := none
  transportPlan := []
  writeAttempts := 0

end Sys2Proof.Machine
end

