-- ==== Sys2Proof/Machine/Ops.lean ====
section
/-!
DEFINITION. The shared operations: answering a request, ending one with an error, serializing a
Word, the Transport write, and the composition of host steps that stops at the first error.
-/

namespace Sys2Proof.Machine

/-- The next entry of the host's list (10_state R17). -/
def nextHostStep (s : State) : Option HostStep :=
  s.program[s.position]?

/-- The host moves on by one entry, whatever the answer will be (10_state R17), and its last report
is over. -/
def advance (s : State) : State :=
  { s with position := s.position + 1, report := none }

/-- The core answers a request: the exchange is recorded on the host's side and nothing else changes
(10_state R15, R16). -/
def respond (i : Instr) (r : Response) (s : State) : State :=
  { s with exchanges := s.exchanges ++ [⟨i, r⟩] }

/-- TAKING AN ERROR. The request ends with the error's class and no result; nothing is saved and
nothing else changes (60_exceptions R112, R115). There is no handler, no vector and no return
instruction: the next request is taken as if this one had not been made (R116). -/
def raiseError (e : CoreError) (i : Instr) (s : State) : State :=
  respond i (.error e) s

/-- The response to the t-th request, if there has been one. -/
def responseAt (t : Nat) (s : State) : Option Response :=
  (s.exchanges[t]?).map (·.response)

/-- The response port: the response to the last request, not defined before the first
(10_state R31). -/
def currentResponse (s : State) : Option Response :=
  s.exchanges.getLast?.map (·.response)

/-- A Word as its 4 bytes, most significant first (20_memory R35). -/
def serialize (w : Word) : Frame :=
  ⟨w.extractLsb' 24 8, w.extractLsb' 16 8, w.extractLsb' 8 8, w.extractLsb' 0 8⟩

/-- What the Transport answers to the next write: the next planned answer, else a free one (log 9). -/
def transportAnswer (s : State) : TransportAnswer :=
  match s.transportPlan with
  | a :: _ => a
  | [] => Config.freeTransportAnswer s.writeAttempts

/-- What a host composition has come to: the state so far, and a value or the error that ended it. -/
abbrev HostResult (α : Type) := State × Except HostError α

/-- The next part of a host composition; after an error no later part runs (60_exceptions R114). -/
def thenDo {α β : Type} (r : HostResult α) (k : α → State → HostResult β) : HostResult β :=
  match r with
  | (s, .ok a) => k a s
  | (s, .error e) => (s, .error e)

/-- A step of a host composition that touches no state: a Registry lookup. -/
def hostValue {α : Type} (r : Except CoreError α) (s : State) : HostResult α :=
  match r with
  | .ok a => (s, .ok a)
  | .error e => (s, .error (.core e))

/-- `Transport.write` of four bytes (20_memory R38): a write that returns is logged (10_state R30);
one that raises IOError adds nothing (93_implementation_defined I7). -/
def transportWrite (f : Frame) (s : State) : HostResult Unit :=
  let s' := { s with transportPlan := s.transportPlan.tail, writeAttempts := s.writeAttempts + 1 }
  match transportAnswer s with
  | .accepts => ({ s' with transportLog := s.transportLog ++ [f] }, .ok ())
  | .ioError => (s', .error .ioError)

/-- The end of a host call that returns nothing: its caller gets a plain return or the error,
unchanged (43_host_compositions R92, 60_exceptions R117). -/
def finish (r : HostResult Unit) : State :=
  match r with
  | (s, .ok _) => { s with report := some .returned }
  | (s, .error e) => { s with report := some (.raised e) }

/-- The end of a lookup: its caller gets the code or the error (10_state R28). -/
def finishLookup (r : Except CoreError (BitVec 4)) (s : State) : State :=
  match r with
  | .ok c => { s with report := some (.value c) }
  | .error e => { s with report := some (.raised (.core e)) }

end Sys2Proof.Machine
end

