-- ==== Sys2Proof/Machine/Flags.lean ====
section
/-!
DEFINITION. The status field. The core has no flags (10_state R18); a response's `err` is its only
status, and it is kept nowhere.
-/

namespace Sys2Proof.Machine

/-- The `err` code of an error class (60_exceptions R107). -/
def errCode : CoreError → BitVec 2
  | .rangeError => 0b01#2
  | .invalidArgument => 0b10#2
  | .illegalOperation => 0b11#2

/-- The `err` field of a response: 0b00 is OK (60_exceptions R107). -/
def responseErr : Response → BitVec 2
  | .encoded _ _ => 0b00#2
  | .code _ => 0b00#2
  | .mask _ => 0b00#2
  | .error e => errCode e

end Sys2Proof.Machine
end

