-- ==== Sys2Proof/Machine/Binary64.lean ====
section
/-!
DEFINITION. The binary64 primitives of 00_scope R12: layout (30_encoding R54), comparison, the
product rounded to nearest with ties to even, and the floor. IEEE 754 itself is general knowledge
(93_implementation_defined G1 to G3; log 11).

A pattern without its sign bit, read as a number, is its magnitude: for values that are not NaN,
magnitudes are ordered as the absolute values are. An absolute value is `significand · 2^scale` in
units of 2^-1074, the least positive binary64.
-/

namespace Sys2Proof.Machine

/-- Bit 63, the sign (30_encoding R54). -/
def f64Sign (x : F64) : Bool := x.getLsbD 63

/-- Bits [62:0]. -/
def f64Magnitude (x : F64) : Nat := (x.extractLsb' 0 63).toNat

/-- Bits [62:52], the biased exponent (30_encoding R54). -/
def f64Exponent (x : F64) : Nat := (x.extractLsb' 52 11).toNat

/-- Bits [51:0], the fraction (30_encoding R54). -/
def f64Fraction (x : F64) : Nat := (x.extractLsb' 0 52).toNat

/-- The magnitude of +∞. -/
def infinityMagnitude : Nat := 0x7FF0000000000000

/-- `isNaN` (00_scope R12): exponent all ones and a fraction that is not zero. -/
def isNaN (x : F64) : Bool := decide (infinityMagnitude < f64Magnitude x)

/-- The signed magnitude: −0.0 and 0.0 have the same. -/
def f64Key (x : F64) : Int :=
  if f64Sign x then -(f64Magnitude x : Int) else (f64Magnitude x : Int)

/-- `f64_lt` (00_scope R12): false when either operand is a NaN. -/
def f64Lt (x y : F64) : Bool :=
  !isNaN x && !isNaN y && decide (f64Key x < f64Key y)

/-- `f64_gt` (00_scope R12). -/
def f64Gt (x y : F64) : Bool := f64Lt y x

/-- The integer significand of a finite value: the implicit bit stands for normal values only. -/
def f64Significand (x : F64) : Nat :=
  if f64Exponent x = 0 then f64Fraction x else 2 ^ 52 + f64Fraction x

/-- The power of two of a finite value, over the least one. -/
def f64Scale (x : F64) : Nat := f64Exponent x - 1

/-- `num / den` rounded to the nearest integer, ties to even. -/
def roundHalfEven (num den : Nat) : Nat :=
  let q := num / den
  let r := num % den
  if den < 2 * r ∨ (2 * r = den ∧ q % 2 = 1) then q + 1 else q

/-- The magnitude of the binary64 nearest to `num / den` units of 2^-1074, ties to even. The
significand keeps 53 bits, and above the largest finite value the result is +∞. -/
def nearestMagnitude (num den : Nat) : Nat :=
  if num = 0 then 0
  else
    let k := Nat.log2 (num / den) + 1 - 53
    min (k * 2 ^ 52 + roundHalfEven num (den * 2 ^ k)) infinityMagnitude

/-- A pattern from its sign and its magnitude. -/
def f64Pack (sign : Bool) (magnitude : Nat) : F64 :=
  BitVec.ofBool sign ++ BitVec.ofNat 63 magnitude

/-- `fmul64` (00_scope R12) on finite operands: the exact product, rounded once to nearest, ties to
even. No rule multiplies anything else. -/
def fmul64 (x y : F64) : F64 :=
  f64Pack (f64Sign x != f64Sign y)
    (nearestMagnitude
      ((f64Significand x * f64Significand y) <<< (f64Scale x + f64Scale y)) (2 ^ 1074))

/-- `floor(toReal(x))` (00_scope R11, R12) of a finite value, toward minus infinity. -/
def f64Floor (x : F64) : Int :=
  let units := f64Significand x <<< f64Scale x
  if f64Sign x then -(((units + (2 ^ 1074 - 1)) >>> 1074 : Nat) : Int)
  else ((units >>> 1074 : Nat) : Int)

/-- The binary64 nearest to `num / den`, ties to even: what a literal denotes (30_encoding R62). -/
def f64OfRatio (negative : Bool) (num den : Nat) : F64 :=
  f64Pack negative (nearestMagnitude (num * 2 ^ 1074) den)

/-- 0.0. -/
def f64Zero : F64 := 0x0000000000000000#64

/-- 1.0 (30_encoding R54). -/
def f64One : F64 := 0x3FF0000000000000#64

/-- 65535.0, FULL_SCALE (00_scope R7). -/
def f64FullScale : F64 := 0x40EFFFE000000000#64

end Sys2Proof.Machine
end

