-- ==== Sys2Proof/Machine/Registry.lean ====
section
/-!
DEFINITION. The Command/Channel Registry: two constant tables and their lookups (10_state R24 to
R28). No operation writes them, so they are no part of State (R27). Names and labels are strings,
matched exactly (log 17).
-/

namespace Sys2Proof.Machine

/-- The Command table (10_state R24). -/
def commandTable : List (String × BitVec 4) :=
  [("WRITE", 0), ("UPDATE", 1), ("WRITE_AND_UPDATE_ALL", 2), ("WRITE_AND_UPDATE", 3),
   ("POWER_DOWN", 4), ("CLEAR", 5), ("RESET", 7)]

/-- The Channel table: label and address code (10_state R25). A label's mask bit is its address
code; ALL, code 15, has none and forces the full mask. -/
def channelTable : List (String × BitVec 4) :=
  [("A", 0), ("B", 1), ("C", 2), ("D", 3), ("E", 4), ("F", 5), ("G", 6), ("H", 7), ("ALL", 15)]

/-- A lookup fails with InvalidArgument on an unrecognized symbol (10_state R28). -/
def lookupIn (table : List (String × BitVec 4)) (symbol : String) : Except CoreError (BitVec 4) :=
  match table.lookup symbol with
  | some c => .ok c
  | none => .error .invalidArgument

/-- `lookup_cmd` (10_state R28). -/
def lookupCommand (name : String) : Except CoreError (BitVec 4) :=
  lookupIn commandTable name

/-- `lookup_ch` (10_state R28). -/
def lookupChannel (label : String) : Except CoreError (BitVec 4) :=
  lookupIn channelTable label

end Sys2Proof.Machine
end

