-- ==== Sys2Proof/Machine/Operands.lean ====
section
/-!
DEFINITION. Operand forms: the width check of ENCODE's operands (40_word_encoder R65), a set of
channel labels as a presence vector (30_encoding R55, 42_channel_mask R82), literals, named results,
and the request a program's line presents (30_encoding R62).
-/

namespace Sys2Proof.Machine

/-- `fits(x, w)`: 0 ≤ x ≤ 2^w − 1 (40_word_encoder R65). -/
def fits (x : Int) (w : Nat) : Bool :=
  decide (0 ≤ x) && decide (x ≤ 2 ^ w - 1)

/-- `sel[c] = 1`, the other bits as they were. -/
def setPresence (sel : PresenceVector) (c : BitVec 4) : PresenceVector :=
  sel ||| (1#16 <<< c.toNat)

/-- `for L in chs: sel[lookup_ch(L)] = 1` from a vector already begun (43_host_compositions R102). -/
def presenceFrom (sel : PresenceVector) : List String → Except CoreError PresenceVector
  | [] => .ok sel
  | label :: rest =>
    match lookupChannel label with
    | .ok c => presenceFrom (setPresence sel c) rest
    | .error e => .error e

/-- The presence vector of a list of labels, or InvalidArgument for one the Channel table does not
hold (42_channel_mask R82, R83). -/
def presenceOf (labels : List String) : Except CoreError PresenceVector :=
  presenceFrom 0#16 labels

/-- The pattern a literal denotes (30_encoding R62). -/
def literalBits : RealLiteral → F64
  | .decimal negative coefficient (.ofNat e) => f64OfRatio negative (coefficient * 10 ^ e) 1
  | .decimal negative coefficient (.negSucc e) => f64OfRatio negative coefficient (10 ^ (e + 1))
  | .pattern bits => bits

/-- The number a result stands for as an operand; an error response has none (10_state R23). -/
def resultValue : Response → Option Int
  | .encoded word _ => some word.toNat
  | .code c => some c.toNat
  | .mask m => some m.toNat
  | .error _ => none

/-- The integer an ENCODE operand denotes, or the result that is not defined. -/
def operandValue (o : Operand) (s : State) : Except Nat Int :=
  match o with
  | .int x => .ok x
  | .result t =>
    match (responseAt t s).bind resultValue with
    | some x => .ok x
    | none => .error t

/-- The ENCODE request of five integers; the other ports carry zero and are ignored. -/
def encodeRequest (pfx control address data feature : Int) : Request :=
  (Instr.encode pfx control address data feature).request

/-- What a line of a program comes to: a request to the core, an error the host raises before any
request, or a read of a result that is not defined. -/
inductive Presented where
  | request (r : Request)
  | raised (e : CoreError)
  | undefinedResult (t : Nat)
  deriving DecidableEq, Repr

/-- The ENCODE line: its operands, left to right. -/
def presentEncode (pfx control address data feature : Operand) (s : State) : Presented :=
  match operandValue pfx s, operandValue control s, operandValue address s, operandValue data s,
      operandValue feature s with
  | .ok p, .ok c, .ok a, .ok d, .ok f => .request (encodeRequest p c a d f)
  | .error t, _, _, _, _ => .undefinedResult t
  | _, .error t, _, _, _ => .undefinedResult t
  | _, _, .error t, _, _ => .undefinedResult t
  | _, _, _, .error t, _ => .undefinedResult t
  | _, _, _, _, .error t => .undefinedResult t

/-- The MASK line: the host turns the label list into the presence vector, and raises
InvalidArgument itself for an unknown label, before it sends the request (42_channel_mask R82, R83;
log 18). -/
def presentMask (labels : List String) : Presented :=
  match presenceOf labels with
  | .ok sel => .request (Instr.mask sel).request
  | .error e => .raised e

/-- The request a line presents (30_encoding R62). -/
def present (line : RequestLine) (s : State) : Presented :=
  match line with
  | .ports r => .request r
  | .encode pfx control address data feature => presentEncode pfx control address data feature s
  | .quantize x => .request (Instr.quantize (literalBits x)).request
  | .mask labels => presentMask labels
  | .maskVector sel => .request (Instr.mask sel).request

/-- An opcode AND-composed with a mask: AND, not OR, exactly (43_host_compositions R104, R105). -/
def andComposed (opcode : Word) (m : ChannelMask) : Word :=
  opcode &&& m.setWidth 32

/-- The four bytes a write argument denotes. The bytes of a failed result do not exist, so nothing of
a failed request's word can be sent (70_reset_and_hazards R133, 40_word_encoder R66). -/
def writeFrame (arg : WriteArgument) (s : State) : Except Nat Frame :=
  match arg with
  | .bytes f => .ok f
  | .result t =>
    match responseAt t s with
    | some (.encoded _ bytes) => .ok bytes
    | _ => .error t
  | .masked opcode t =>
    match responseAt t s with
    | some (.mask m) => .ok (serialize (andComposed opcode m))
    | _ => .error t

end Sys2Proof.Machine
end

