-- ==== Sys2Proof/Machine/Encode.lean ====
section
/-!
DEFINITION. The Word Encoder, ENCODE (40_word_encoder R64 to R71).
-/

namespace Sys2Proof.Machine

/-- All five operands fit their fields (40_word_encoder R65). -/
def allFit (pfx control address data feature : Int) : Bool :=
  fits pfx Config.pfxBits && fits control Config.controlBits && fits address Config.addressBits
    && fits data Config.dataBits && fits feature Config.featureBits

/-- `prefix<<28 | control<<24 | address<<20 | data<<4 | feature` (30_encoding R50), on operands that
fit. -/
def packWord (pfx control address data feature : Int) : Word :=
  BitVec.ofNat 32 (pfx.toNat <<< 28 ||| control.toNat <<< 24 ||| address.toNat <<< 20
    ||| data.toNat <<< 4 ||| feature.toNat)

/-- ENCODE's result: all five checks come before any part of the word exists (40_word_encoder R64,
R66), and a failure says only RangeError (R69). -/
def encodeFields (pfx control address data feature : Int) : Except CoreError Word :=
  if allFit pfx control address data feature then .ok (packWord pfx control address data feature)
  else .error .rangeError

/-- ENCODE (40_word_encoder R64): the word and its serialization, or RangeError. -/
def execEncode (pfx control address data feature : Int) (s : State) :
    Host.Outcome State Fault Refusal :=
  match encodeFields pfx control address data feature with
  | .ok w =>
    .next (respond (.encode pfx control address data feature) (.encoded w (serialize w)) s)
  | .error e => .next (raiseError e (.encode pfx control address data feature) s)

/-- One ENCODE request inside a host composition: the same exchange, and the word or the error. -/
def askEncode (pfx control address data feature : Int) (s : State) : HostResult Word :=
  match encodeFields pfx control address data feature with
  | .ok w =>
    (respond (.encode pfx control address data feature) (.encoded w (serialize w)) s, .ok w)
  | .error e => (raiseError e (.encode pfx control address data feature) s, .error (.core e))

/-- The fields of a Word, most significant first: the DECODE of the round-trip law
(40_word_encoder R68). It is no operation of the core (92_eei_decisions D29). -/
def wordFields (w : Word) : BitVec 4 × BitVec 4 × BitVec 4 × BitVec 16 × BitVec 4 :=
  (w.extractLsb' 28 4, w.extractLsb' 24 4, w.extractLsb' 20 4, w.extractLsb' 4 16,
    w.extractLsb' 0 4)

end Sys2Proof.Machine
end

