-- ==== Sys2Proof/Machine/Mask.lean ====
section
/-!
DEFINITION. The Channel Mask Builder, MASK (42_channel_mask R79 to R85).
-/

namespace Sys2Proof.Machine

/-- MASK's result: InvalidArgument when an unrecognized label is present (42_channel_mask R83), else
A..H on bits 0..7 (R80), joined with 0xFF when ALL is present (R81). -/
def maskValue (sel : PresenceVector) : Except CoreError ChannelMask :=
  if sel.extractLsb' 8 7 ≠ 0#7 then .error .invalidArgument
  else
    let m := sel.extractLsb' 0 8
    .ok (if sel.getLsbD 15 then m ||| 0xFF#8 else m)

/-- MASK (42_channel_mask R79): the mask, or InvalidArgument. -/
def execMask (sel : PresenceVector) (s : State) : Host.Outcome State Fault Refusal :=
  match maskValue sel with
  | .ok m => .next (respond (.mask sel) (.mask m) s)
  | .error e => .next (raiseError e (.mask sel) s)

/-- One MASK request inside a host composition. -/
def askMask (sel : PresenceVector) (s : State) : HostResult ChannelMask :=
  match maskValue sel with
  | .ok m => (respond (.mask sel) (.mask m) s, .ok m)
  | .error e => (raiseError e (.mask sel) s, .error (.core e))

end Sys2Proof.Machine
end

