-- ==== Sys2Proof/Machine/Quantize.lean ====
section
/-!
DEFINITION. The Value Quantizer, QUANTIZE (41_quantizer R72 to R78).
-/

namespace Sys2Proof.Machine

/-- The rounded binary64 product `v * 65535` (41_quantizer R74). -/
def quantizeProduct (v : F64) : F64 := fmul64 v f64FullScale

/-- QUANTIZE's result: RangeError for a NaN, v < 0 or v > 1 (41_quantizer R73), else the floor of
the rounded product (R72, R77). −0.0 is not less than 0.0 (R78). -/
def quantizeValue (v : F64) : Except CoreError DacCode :=
  if isNaN v then .error .rangeError
  else if f64Lt v f64Zero then .error .rangeError
  else if f64Gt v f64One then .error .rangeError
  else .ok (BitVec.ofInt 16 (f64Floor (quantizeProduct v)))

/-- QUANTIZE (41_quantizer R72): the code, or RangeError. -/
def execQuantize (v : F64) (s : State) : Host.Outcome State Fault Refusal :=
  match quantizeValue v with
  | .ok c => .next (respond (.quantize v) (.code c) s)
  | .error e => .next (raiseError e (.quantize v) s)

/-- One QUANTIZE request inside a host composition. -/
def askQuantize (v : F64) (s : State) : HostResult DacCode :=
  match quantizeValue v with
  | .ok c => (respond (.quantize v) (.code c) s, .ok c)
  | .error e => (raiseError e (.quantize v) s, .error (.core e))

end Sys2Proof.Machine
end

