-- ==== Sys2Proof/Machine/Reserved.lean ====
section
/-!
DEFINITION. The reserved operation select (30_encoding R49, 60_exceptions R110).
-/

namespace Sys2Proof.Machine

/-- `op` = 0b11 reads no operand and raises IllegalOperation (30_encoding R49). -/
def execReserved (s : State) : Host.Outcome State Fault Refusal :=
  .next (raiseError .illegalOperation .reserved s)

end Sys2Proof.Machine
end

