-- ==== Sys2Proof/Machine/Dispatch.lean ====
section
/-!
DEFINITION. The dispatch: one arm per row of the opcode table.
-/

namespace Sys2Proof.Machine

def exec (i : Instr) (s : State) : Host.Outcome State Fault Refusal :=
  match i with
  | .encode pfx control address data feature => Sys2Proof.Machine.execEncode pfx control address data feature s
  | .quantize v => Sys2Proof.Machine.execQuantize v s
  | .mask sel => Sys2Proof.Machine.execMask sel s
  | .reserved => Sys2Proof.Machine.execReserved s

end Sys2Proof.Machine
end

