-- ==== Sys2Proof/Machine/Facade.lean ====
section
/-!
DEFINITION. The Device Facade: its eleven public operations as compositions of Registry lookups,
core requests and one Transport write (43_host_compositions R86 to R105), its construction
(70_reset_and_hazards R126 to R131), and the expansion of each operation into host calls
(30_encoding R63). A Facade call is one step of the machine: nothing can come between its parts
(20_memory R42; log 16).
-/

namespace Sys2Proof.Machine

/-- One ENCODE request and one write of its bytes, the end of every operation but the AND-composed
ones (43_host_compositions R90). -/
def sendFields (pfx control address data feature : Int) (s : State) : HostResult Unit :=
  thenDo (askEncode pfx control address data feature s) fun w s => transportWrite (serialize w) s

/-- `software_reset()` (43_host_compositions R93). -/
def softwareReset (s : State) : HostResult Unit := sendFields 0 7 0 0x0000 0 s

/-- `internal_reference_on()` (43_host_compositions R94). -/
def internalReferenceOn (s : State) : HostResult Unit := sendFields 0 9 0 0xA000 0 s

/-- `clear_all_to_zero()` (43_host_compositions R95). -/
def clearAllToZero (s : State) : HostResult Unit := sendFields 0 5 0 0x0000 0 s

/-- `clear_all_to_mid()` (43_host_compositions R96). -/
def clearAllToMid (s : State) : HostResult Unit := sendFields 0 5 0 0x0000 1 s

/-- `clear_all_to_full()` (43_host_compositions R97). -/
def clearAllToFull (s : State) : HostResult Unit := sendFields 0 5 0 0x0000 2 s

/-- Lookup, QUANTIZE, ENCODE with prefix 0 and feature 0, write: the channel operations that carry a
value (43_host_compositions R91, R98 to R100; 20_memory R43). -/
def sendValue (control : Int) (ch : String) (x : F64) (s : State) : HostResult Unit :=
  thenDo (hostValue (lookupChannel ch) s) fun a s =>
  thenDo (askQuantize x s) fun q s =>
  sendFields 0 control a.toNat q.toNat 0 s

/-- `write_to_register(ch, x)`, control 0 = WRITE (43_host_compositions R98). -/
def writeToRegister (ch : String) (x : F64) (s : State) : HostResult Unit := sendValue 0 ch x s

/-- `write_and_update(ch, x)`, control 3 = WRITE_AND_UPDATE (43_host_compositions R99). -/
def writeAndUpdate (ch : String) (x : F64) (s : State) : HostResult Unit := sendValue 3 ch x s

/-- `write_and_update_all(ch, x)`, control 2; the address is still the channel's
(43_host_compositions R100). -/
def writeAndUpdateAll (ch : String) (x : F64) (s : State) : HostResult Unit := sendValue 2 ch x s

/-- `update_channel(ch)`, control 1 = UPDATE, data 0 (43_host_compositions R101). -/
def updateChannel (ch : String) (s : State) : HostResult Unit :=
  thenDo (hostValue (lookupChannel ch) s) fun a s => sendFields 0 1 a.toNat 0x0000 0 s

/-- Lookups, one MASK request, the AND composition, and one write of its serialization
(43_host_compositions R90, R102 to R105). -/
def sendMasked (opcode : Word) (chs : List String) (s : State) : HostResult Unit :=
  thenDo (hostValue (presenceOf chs) s) fun sel s =>
  thenDo (askMask sel s) fun m s =>
  transportWrite (serialize (andComposed opcode m)) s

/-- LDAC_OPCODE (43_host_compositions R86). -/
def ldacOpcode : Word := 0x03000000#32

/-- POWER_UP_OPCODE (43_host_compositions R86). -/
def powerUpOpcode : Word := 0x04000000#32

/-- `write_to_ldac_register(chs)` (43_host_compositions R102). -/
def writeToLdacRegister (chs : List String) (s : State) : HostResult Unit :=
  sendMasked ldacOpcode chs s

/-- `power_up_dac(chs)` (43_host_compositions R103). -/
def powerUpDac (chs : List String) (s : State) : HostResult Unit :=
  sendMasked powerUpOpcode chs s

/-- A public operation of an initialized Facade (30_encoding R63). -/
def runFacade (op : FacadeOp) (s : State) : HostResult Unit :=
  match op with
  | .softwareReset => softwareReset s
  | .internalReferenceOn => internalReferenceOn s
  | .clearAllToZero => clearAllToZero s
  | .clearAllToMid => clearAllToMid s
  | .clearAllToFull => clearAllToFull s
  | .writeToRegister ch x => writeToRegister ch x s
  | .writeAndUpdate ch x => writeAndUpdate ch x s
  | .writeAndUpdateAll ch x => writeAndUpdateAll ch x s
  | .updateChannel ch => updateChannel ch s
  | .writeToLdacRegister chs => writeToLdacRegister chs s
  | .powerUpDac chs => powerUpDac chs s

/-- Construction (70_reset_and_hazards R127): the two writes in their order, then Initialized. An
IOError stops it at once and leaves the Facade Uninitialized (R130). In a machine that already has a
Facade it makes a new one (R128; log 15). -/
def constructFacade (s : State) : HostResult Unit :=
  thenDo (softwareReset { s with facade := .uninitialized }) fun _ s =>
  thenDo (internalReferenceOn s) fun _ s =>
  ({ s with facade := .initialized }, .ok ())

/-- The ENCODE line whose address and other fields are known and whose data may be a result. -/
def encodeLine (control address : Int) (data : Operand) (feature : Int) : HostCall :=
  .request (.encode (.int 0) (.int control) (.int address) data (.int feature))

/-- The expansion of a value operation: QUANTIZE is result `base`, ENCODE result `base + 1`. -/
def expandValue (control : Int) (ch : String) (x : F64) (base : Nat) :
    Except CoreError (List HostCall) :=
  match lookupChannel ch with
  | .ok a => .ok [.request (.quantize (.pattern x)), encodeLine control a.toNat (.result base) 0,
      .write (.result (base + 1))]
  | .error e => .error e

/-- The expansion of an AND-composed operation: MASK is result `base`. -/
def expandMasked (opcode : Word) (chs : List String) (base : Nat) :
    Except CoreError (List HostCall) :=
  match presenceOf chs with
  | .ok sel => .ok [.request (.maskVector sel), .write (.masked opcode base)]
  | .error e => .error e

/-- A pseudo-operation as the host calls it stands for, once its Registry lookups are done
(30_encoding R63, 95_test_vectors Part 3). `base` is the number of responses there have been, so that
the lines can name their results. -/
def expandFacade (op : FacadeOp) (base : Nat) : Except CoreError (List HostCall) :=
  match op with
  | .softwareReset => .ok [encodeLine 7 0 (.int 0x0000) 0, .write (.result base)]
  | .internalReferenceOn => .ok [encodeLine 9 0 (.int 0xA000) 0, .write (.result base)]
  | .clearAllToZero => .ok [encodeLine 5 0 (.int 0x0000) 0, .write (.result base)]
  | .clearAllToMid => .ok [encodeLine 5 0 (.int 0x0000) 1, .write (.result base)]
  | .clearAllToFull => .ok [encodeLine 5 0 (.int 0x0000) 2, .write (.result base)]
  | .writeToRegister ch x => expandValue 0 ch x base
  | .writeAndUpdate ch x => expandValue 3 ch x base
  | .writeAndUpdateAll ch x => expandValue 2 ch x base
  | .updateChannel ch =>
    match lookupChannel ch with
    | .ok a => .ok [encodeLine 1 a.toNat (.int 0x0000) 0, .write (.result base)]
    | .error e => .error e
  | .writeToLdacRegister chs => expandMasked ldacOpcode chs base
  | .powerUpDac chs => expandMasked powerUpOpcode chs base

end Sys2Proof.Machine
end

