-- ==== Sys2Proof/Machine/HostCalls.lean ====
section
/-!
DEFINITION. What one host step does: it presents a request to the core, looks a symbol up, writes to
the Transport, constructs a Facade, or calls one (00_scope R5).
-/

namespace Sys2Proof.Machine

/-- A request at the core's ports: the decoded instruction runs. An operand its port cannot carry is
the host's broken obligation (93_implementation_defined I12; log 6). -/
def runRequest (r : Request) (s : State) : Host.Outcome State Fault Refusal :=
  match decode r with
  | .ok i => exec i s
  | .error (.operandBeyondPort port) => .refused (.operandBeyondPort port)

/-- A line of a program (30_encoding R62). -/
def runLine (line : RequestLine) (s : State) : Host.Outcome State Fault Refusal :=
  match present line s with
  | .request r => runRequest r s
  | .raised e => .next { s with report := some (.raised (.core e)) }
  | .undefinedResult t => .refused (.undefinedResult t)

/-- `Transport.write` as a host step (00_scope R12). It needs no Facade (95_test_vectors P5; log
19). -/
def runWrite (arg : WriteArgument) (s : State) : Host.Outcome State Fault Refusal :=
  match writeFrame arg s with
  | .ok f => .next (finish (transportWrite f s))
  | .error t => .refused (.undefinedResult t)

/-- A Facade operation is accepted only once the Facade is Initialized (70_reset_and_hazards R129). -/
def runFacadeCall (op : FacadeOp) (s : State) : Host.Outcome State Fault Refusal :=
  match s.facade with
  | .initialized => .next (finish (runFacade op s))
  | .uninitialized => .refused .facadeUninitialized

/-- One host call. -/
def runCall (c : HostCall) (s : State) : Host.Outcome State Fault Refusal :=
  match c with
  | .request line => runLine line s
  | .lookupCommand name => .next (finishLookup (lookupCommand name) s)
  | .lookupChannel label => .next (finishLookup (lookupChannel label) s)
  | .write arg => runWrite arg s
  | .construct => .next (finish (constructFacade s))
  | .facade op => runFacadeCall op s

/-- One host step. A second call while one is in progress has no behaviour (20_memory R47). -/
def runHostStep (h : HostStep) (s : State) : Host.Outcome State Fault Refusal :=
  match h with
  | .call c => runCall c s
  | .concurrent _ _ => .refused .concurrentInvocation

end Sys2Proof.Machine
end

