-- ==== Sys2Proof/Machine/Step.lean ====
section
/-!
DEFINITION. One step of the machine: the next entry of the host's list (10_state R17), and the way a
request is put there.
-/

namespace Sys2Proof.Machine

/-- The next host step runs, the position having moved past it. With no next entry nothing is
presented to the core and the machine stops (log 3). -/
def step (s : State) : Host.Outcome State Fault Refusal :=
  match nextHostStep s with
  | some h => runHostStep h (advance s)
  | none => .fault .noHostStep

/-- `s` with the request of a table word as its next host step. This stands for the outside loading
the host's program (log 1). -/
def State.withFetchWord (s : State) (nbits w : Nat) : State :=
  { s with
    program := s.program.take s.position
      ++ .call (.request (.ports (Request.ofBits (tableBits nbits w))))
        :: s.program.drop (s.position + 1)
    position := min s.position s.program.length }

end Sys2Proof.Machine
end

