-- ==== Sys2Proof/Safety.lean ====
section
/-!
DEFINITION. The terms statements are made in: what a request's answer is, what a host call leaves
alone, the invariants of a run, and the numeric value of a binary64 pattern.
-/

namespace Sys2Proof.Machine

/-- `exec i s` ANSWERS A NEXT STATE, in which the request has been answered with `r` and every other
field is as it was (10_state R15, 60_exceptions R115). -/
def Answers (i : Instr) (s : State) (r : Response) : Prop :=
  exec i s = .next { s with exchanges := s.exchanges ++ [⟨i, r⟩] }

/-- Two states that differ at most in the record of exchanges. -/
def SameButExchanges (s t : State) : Prop :=
  t.program = s.program ∧ t.position = s.position ∧ t.facade = s.facade ∧
  t.transportLog = s.transportLog ∧ t.report = s.report ∧
  t.transportPlan = s.transportPlan ∧ t.writeAttempts = s.writeAttempts

/-- `s` after a host call that made these requests, attempted this many writes, of which these
frames returned, and gave this report. The program, the position and the Facade's state stay. -/
def afterCall (s : State) (requests : List Exchange) (frames : List Frame) (attempts : Nat)
    (report : Report) : State :=
  { s with
    exchanges := s.exchanges ++ requests
    transportLog := s.transportLog ++ frames
    transportPlan := s.transportPlan.drop attempts
    writeAttempts := s.writeAttempts + attempts
    report := some report }

/-- The call completes with one write of `f`: it returns when the Transport accepts the write, and
passes an IOError on unchanged, with nothing logged and no retry (43_host_compositions R88, R92). -/
def CallWrites (c : HostCall) (s : State) (requests : List Exchange) (f : Frame) : Prop :=
  (transportAnswer s = .accepts →
    runCall c s = .next (afterCall s requests [f] 1 .returned)) ∧
  (transportAnswer s = .ioError →
    runCall c s = .next (afterCall s requests [] 1 (.raised .ioError)))

/-- The call fails with a core error after these requests: no write is attempted
(43_host_compositions R88, 60_exceptions R115). -/
def CallFails (c : HostCall) (s : State) (requests : List Exchange) (e : CoreError) : Prop :=
  runCall c s = .next (afterCall s requests [] 0 (.raised (.core e)))

/-- The Transport's answer to the k-th write from now. -/
def comingAnswer (k : Nat) (s : State) : TransportAnswer :=
  (s.transportPlan[k]?).getD (Config.freeTransportAnswer (s.writeAttempts + k))

/-- The ENCODE operands are legal field values (10_state R22). -/
def LegalFields (pfx control address data feature : Int) : Prop :=
  0 ≤ pfx ∧ pfx ≤ 15 ∧ 0 ≤ control ∧ control ≤ 15 ∧ 0 ≤ address ∧ address ≤ 15 ∧
  0 ≤ data ∧ data ≤ 65535 ∧ 0 ≤ feature ∧ feature ≤ 15

/-- A legal QUANTIZE operand by the comparisons of 41_quantizer R72: not a NaN, not below 0.0, not
above 1.0. -/
def LegalUnit (v : F64) : Prop :=
  isNaN v = false ∧ f64Lt v f64Zero = false ∧ f64Gt v f64One = false

/-- The value of a finite pattern in units of 2^-1074. For an infinity it is ±2^2098, beyond every
finite value. -/
def f64Units (x : F64) : Int :=
  if f64Sign x then -((f64Significand x * 2 ^ f64Scale x : Nat) : Int)
  else ((f64Significand x * 2 ^ f64Scale x : Nat) : Int)

/-- Neither infinite nor a NaN. -/
def f64Finite (x : F64) : Prop := f64Magnitude x < infinityMagnitude

/-- The bytes of SOFTWARE_RESET (43_host_compositions R86). -/
def softwareResetFrame : Frame := ⟨0x07#8, 0x00#8, 0x00#8, 0x00#8⟩

/-- The bytes of INTERNAL_REFERENCE_ON (43_host_compositions R86). -/
def internalReferenceFrame : Frame := ⟨0x09#8, 0x0A#8, 0x00#8, 0x00#8⟩

/-- The request `software_reset()` makes, with its response (43_host_compositions R93). -/
def softwareResetExchange : Exchange :=
  ⟨.encode 0 7 0 0 0, .encoded 0x07000000#32 softwareResetFrame⟩

/-- The request `internal_reference_on()` makes, with its response (43_host_compositions R94). -/
def internalReferenceExchange : Exchange :=
  ⟨.encode 0 9 0 0xA000 0, .encoded 0x090A0000#32 internalReferenceFrame⟩

/-- Every recorded response is the one its request gets from the core in any state: a response is a
function of its request alone (10_state R15). -/
def HistoryFaithful (s : State) : Prop :=
  ∀ e ∈ s.exchanges, ∀ s₀, Answers e.instr s₀ e.response

/-- An Initialized Facade has sent its two initialization words, one directly after the other
(70_reset_and_hazards R127, R131). -/
def ConstructionSent (s : State) : Prop :=
  s.facade = .initialized →
    ∃ before after, s.transportLog
      = before ++ [softwareResetFrame, internalReferenceFrame] ++ after

/-- The position is an index of the program, or its end. -/
def PositionInProgram (s : State) : Prop := s.position ≤ s.program.length

/-- The invariant of every step. -/
def Inv (s : State) : Prop :=
  HistoryFaithful s ∧ ConstructionSent s ∧ PositionInProgram s

/-- `n` steps, stopping at the first fault or refusal. -/
def runSteps (n : Nat) (s : State) : Host.Outcome State Fault Refusal :=
  match n with
  | 0 => .next s
  | n + 1 =>
    match step s with
    | .next s' => runSteps n s'
    | .fault r => .fault r
    | .refused r => .refused r

/-- A list of requests presented one after the other to the core. -/
def execAll (is : List Instr) (s : State) : Host.Outcome State Fault Refusal :=
  match is with
  | [] => .next s
  | i :: rest =>
    match exec i s with
    | .next s' => execAll rest s'
    | .fault r => .fault r
    | .refused r => .refused r

end Sys2Proof.Machine
end

