-- ==== Sys2Proof/Certificates/Slice0/Obligations.lean ====
section
/-!
DEFINITION. The statements for the provers. `Answers i s r` says that `exec i s` answers a next
state whose only change is the recorded response `r`; `afterCall` is the whole next state of a host
call. Docstrings name the rule of spec/ a statement formalises.
-/

open Sys2Proof Sys2Proof.Machine

/-! ### The core as a whole -/

/-- 10_state R15: "Each response is a function of its request alone." One response per instruction,
given in every state, and nothing but the record of exchanges changes. So every instruction
completes in every state. -/
def Obligations.ResponseDependsOnRequestAlone : Prop :=
  ∀ i : Instr, ∃ r : Response, ∀ s : State, Answers i s r

/-- The frame of the four operations: whatever a request is answered with, the program, the position,
`facade_state`, `transport_log`, the report and the Transport's answers are as they were, and one
exchange is appended (10_state R15, R16). -/
def Obligations.RequestChangesOnlyTheRecord : Prop :=
  ∀ (i : Instr) (s t : State), exec i s = .next t →
    SameButExchanges s t ∧ ∃ r, t.exchanges = s.exchanges ++ [⟨i, r⟩]

/-- 60_exceptions R115: an error response leaves no result, no byte and no write. -/
def Obligations.ErrorHasNoEffectButItsResponse : Prop :=
  ∀ (i : Instr) (s t : State) (e : CoreError), exec i s = .next t →
    currentResponse t = some (.error e) →
    t = raiseError e i s ∧ SameButExchanges s t ∧
      resultValue (.error e) = none ∧ responseErr (.error e) ≠ 0#2

/-- Which error classes each operation can report (60_exceptions R113, whose last two steps the spec
marks as its own inference). -/
def Obligations.EachOperationReportsItsOwnErrorClass : Prop :=
  ∀ (r : Request) (s t : State) (e : CoreError), runRequest r s = .next t →
    currentResponse t = some (.error e) →
    (r.op = 0b11#2 → e = .illegalOperation) ∧
    (r.op = 0b00#2 ∨ r.op = 0b01#2 → e = .rangeError) ∧
    (r.op = 0b10#2 → e = .invalidArgument)

/-- The codes of `err`, and which result field is defined: with `err` = OK exactly the selected
operation's, with an error none (60_exceptions R107, 10_state R23; that an error response carries no
result at all is the model's reading: log 5). -/
def Obligations.StatusTellsTheDefinedResult : Prop :=
  errCode .rangeError = 0b01#2 ∧ errCode .invalidArgument = 0b10#2 ∧
  errCode .illegalOperation = 0b11#2 ∧
  ∀ (i : Instr) (s : State) (r : Response), Answers i s r →
    (responseErr r = 0b00#2 →
      (∃ p c a d f w, i = .encode p c a d f ∧ r = .encoded w (serialize w)) ∨
      (∃ v c, i = .quantize v ∧ r = .code c) ∨
      (∃ sel m, i = .mask sel ∧ r = .mask m)) ∧
    (responseErr r ≠ 0b00#2 → ∃ e, r = .error e ∧ responseErr r = errCode e)

/-- A run of requests answers each of them as if it had been the only one, the requests after a
failed one included (60_exceptions R116, marked as the spec's inference from R115). -/
def Obligations.RunOfRequestsAnswersEachAlone : Prop :=
  ∀ (is : List Instr) (s : State), ∃ es : List Exchange,
    execAll is s = .next { s with exchanges := s.exchanges ++ es } ∧
    es.map (·.instr) = is ∧
    ∀ e ∈ es, ∀ s₀, Answers e.instr s₀ e.response

/-! ### ENCODE -/

/-- 40_word_encoder R64: the word by the formula on mathematical integers (nothing is cut off), its
bytes, and RangeError for every other tuple. -/
def Obligations.EncodeAnswersWordAndBytesOrRangeError : Prop :=
  ∀ (p c a d f : Int) (s : State),
    (LegalFields p c a d f → ∃ w : Word,
      w.toNat = (p.toNat <<< 28) ||| (c.toNat <<< 24) ||| (a.toNat <<< 20) ||| (d.toNat <<< 4)
        ||| f.toNat ∧
      Answers (.encode p c a d f) s
        (.encoded w ⟨w.extractLsb' 24 8, w.extractLsb' 16 8, w.extractLsb' 8 8,
          w.extractLsb' 0 8⟩)) ∧
    (¬ LegalFields p c a d f → Answers (.encode p c a d f) s (.error .rangeError))

/-- 30_encoding R50: each field of the word is the operand, in its own bits. -/
def Obligations.WordFieldsHoldTheOperands : Prop :=
  ∀ (p c a d f : Int) (s : State), LegalFields p c a d f → ∃ w : Word,
    Answers (.encode p c a d f) s (.encoded w (serialize w)) ∧
    ((w.extractLsb' 28 4).toNat : Int) = p ∧ ((w.extractLsb' 24 4).toNat : Int) = c ∧
    ((w.extractLsb' 20 4).toNat : Int) = a ∧ ((w.extractLsb' 4 16).toNat : Int) = d ∧
    ((w.extractLsb' 0 4).toNat : Int) = f

/-- For legal field values the OR of the shifted fields is their concatenation, and their plain sum:
no carry and no overlap (30_encoding R52, marked as the spec's inference from R50). -/
def Obligations.OrOfShiftedFieldsIsConcatenation : Prop :=
  ∀ (p c a d f : Int), LegalFields p c a d f →
    packWord p c a d f = BitVec.ofInt 4 p ++ BitVec.ofInt 4 c ++ BitVec.ofInt 4 a
      ++ BitVec.ofInt 16 d ++ BitVec.ofInt 4 f ∧
    ((packWord p c a d f).toNat : Int)
      = p * 2 ^ 28 + c * 2 ^ 24 + a * 2 ^ 20 + d * 2 ^ 4 + f

/-- 40_word_encoder R67: the four bytes of a legal field tuple. -/
def Obligations.EncodedBytesHoldTheNibbles : Prop :=
  ∀ (p c a d f : Int) (s : State), LegalFields p c a d f → ∃ (w : Word) (b : Frame),
    Answers (.encode p c a d f) s (.encoded w b) ∧
    (b.b0.toNat : Int) = p * 16 + c ∧
    (b.b1.toNat : Int) = a * 16 + d / 4096 ∧
    (b.b2.toNat : Int) = d / 16 % 256 ∧
    (b.b3.toNat : Int) = d % 16 * 16 + f

/-- 20_memory R35: the serialization is the word, most significant byte first. -/
def Obligations.SerializationIsBigEndian : Prop :=
  ∀ w : Word,
    (serialize w).b0 ++ (serialize w).b1 ++ (serialize w).b2 ++ (serialize w).b3 = w ∧
    (serialize w).b0.toNat = w.toNat / 2 ^ 24 ∧
    (serialize w).b1.toNat = w.toNat / 2 ^ 16 % 256 ∧
    (serialize w).b2.toNat = w.toNat / 2 ^ 8 % 256 ∧
    (serialize w).b3.toNat = w.toNat % 256

/-- The two round-trip laws of 40_word_encoder R68; the second the spec marks as its own
inference. -/
def Obligations.DecodeOfEncodedWordRecoversFields : Prop :=
  (∀ (p c a d f : Int), LegalFields p c a d f → ∃ w, encodeFields p c a d f = .ok w ∧
    wordFields w = (BitVec.ofInt 4 p, BitVec.ofInt 4 c, BitVec.ofInt 4 a, BitVec.ofInt 16 d,
      BitVec.ofInt 4 f)) ∧
  (∀ w : Word,
    encodeFields (w.extractLsb' 28 4).toNat (w.extractLsb' 24 4).toNat (w.extractLsb' 20 4).toNat
      (w.extractLsb' 4 16).toNat (w.extractLsb' 0 4).toNat = .ok w)

/-- ENCODE is a bijection from the legal tuples onto the 2^32 words (40_word_encoder R70, marked as
the spec's inference from R68). -/
def Obligations.EncodeIsABijectionOnLegalTuples : Prop :=
  (∀ (p c a d f : Int), LegalFields p c a d f ↔ ∃ w, encodeFields p c a d f = .ok w) ∧
  (∀ w : Word, ∃! t : Int × Int × Int × Int × Int,
    LegalFields t.1 t.2.1 t.2.2.1 t.2.2.2.1 t.2.2.2.2 ∧
    encodeFields t.1 t.2.1 t.2.2.1 t.2.2.2.1 t.2.2.2.2 = .ok w)

/-- 40_word_encoder R71: one past each field's maximum, the other operands legal. -/
def Obligations.OnePastEachMaximumIsRejected : Prop :=
  ∀ (p c a d f : Int) (s : State), LegalFields p c a d f →
    Answers (.encode 16 c a d f) s (.error .rangeError) ∧
    Answers (.encode p 16 a d f) s (.error .rangeError) ∧
    Answers (.encode p c 16 d f) s (.error .rangeError) ∧
    Answers (.encode p c a 65536 f) s (.error .rangeError) ∧
    Answers (.encode p c a d 16) s (.error .rangeError)

/-! ### QUANTIZE -/

/-- QUANTIZE completes: RangeError outside [0,1] and for a NaN; otherwise the code is the rounded
product truncated (in units of 2^-1074, `code ≤ product < code + 1`) (41_quantizer R72 to R74, R77;
the product and the comparisons are IEEE 754's: log 11). -/
def Obligations.QuantizeAnswersTruncatedProductOrRangeError : Prop :=
  ∀ (v : F64) (s : State),
    (isNaN v = true ∨ f64Lt v f64Zero = true ∨ f64Gt v f64One = true →
      Answers (.quantize v) s (.error .rangeError)) ∧
    (LegalUnit v → ∃ c : DacCode,
      (c.toNat : Int) * 2 ^ 1074 ≤ f64Units (fmul64 v f64FullScale) ∧
      f64Units (fmul64 v f64FullScale) < ((c.toNat : Int) + 1) * 2 ^ 1074 ∧
      Answers (.quantize v) s (.code c))

/-- 41_quantizer R73 on bit patterns (30_encoding R54; the layout is IEEE 754's: log 11): the
accepted operands are exactly the patterns from 0.0 up to 1.0 and −0.0. Every other pattern, NaNs and
infinities included, gets RangeError. -/
def Obligations.QuantizeAcceptsExactlyTheUnitPatterns : Prop :=
  ∀ (v : F64) (s : State),
    ((v.toNat ≤ 0x3FF0000000000000 ∨ v = 0x8000000000000000#64) →
      ∃ c, Answers (.quantize v) s (.code c)) ∧
    (¬ (v.toNat ≤ 0x3FF0000000000000 ∨ v = 0x8000000000000000#64) →
      Answers (.quantize v) s (.error .rangeError))

/-- 41_quantizer R76: monotonic non-decreasing, in [0, 65535] before any cut to 16 bits, so the
result fits ENCODE's data field. -/
def Obligations.QuantizeIsMonotonicAndBounded : Prop :=
  ∀ (v w : F64) (s : State), LegalUnit v → LegalUnit w → f64Units v ≤ f64Units w →
    ∃ c d : DacCode, Answers (.quantize v) s (.code c) ∧ Answers (.quantize w) s (.code d) ∧
      c.toNat ≤ d.toNat ∧ f64Floor (quantizeProduct v) = c.toNat ∧
      0 ≤ f64Floor (quantizeProduct v) ∧ f64Floor (quantizeProduct v) ≤ 65535 ∧
      fits c.toNat 16 = true

/-- The boundary contract of 41_quantizer R75, and the two exact products, which the spec marks as
its own inference. -/
def Obligations.QuantizeMeetsTheBoundaryContract : Prop :=
  fmul64 f64One f64FullScale = f64FullScale ∧ fmul64 f64Zero f64FullScale = f64Zero ∧
  ∀ s : State, Answers (.quantize f64Zero) s (.code 0#16) ∧
    Answers (.quantize f64One) s (.code 65535#16)

/-- −0.0, subnormals, and the smallest operand that gives code 1 (41_quantizer R78, marked as the
spec's inference from R74). -/
def Obligations.QuantizeOfTinyOperands : Prop :=
  ∀ s : State,
    quantizeProduct 0x8000000000000000#64 = 0x8000000000000000#64 ∧
    Answers (.quantize 0x8000000000000000#64) s (.code 0#16) ∧
    (∀ v : F64, 0 < v.toNat → v.toNat < 2 ^ 52 → Answers (.quantize v) s (.code 0#16)) ∧
    (∀ v : F64, LegalUnit v → f64Lt (quantizeProduct v) f64One = true →
      Answers (.quantize v) s (.code 0#16)) ∧
    quantizeProduct 0x3EF0001000100010#64 = f64One ∧
    Answers (.quantize 0x3EF0001000100010#64) s (.code 1#16) ∧
    (∀ v : F64, v.toNat < 0x3EF0001000100010 → Answers (.quantize v) s (.code 0#16))

/-- QUANTIZE(binary64(k/65535)) = k for every k (41_quantizer R74, marked as the spec's inference; the
rounding of the quotient is log 12's). -/
def Obligations.QuantizeInvertsEveryCodeRatio : Prop :=
  ∀ (k : Nat) (s : State), k ≤ 65535 →
    Answers (.quantize (f64OfRatio false k 65535)) s (.code (BitVec.ofNat 16 k))

/-- 92_eei_decisions D9: the rounded product's code is the exact product's floor or one more. -/
def Obligations.QuantizeIsWithinOneOfTheExactFloor : Prop :=
  ∀ (v : F64) (s : State), LegalUnit v → ∃ c : DacCode, Answers (.quantize v) s (.code c) ∧
    (f64Units v * 65535 / 2 ^ 1074 = c.toNat ∨ f64Units v * 65535 / 2 ^ 1074 + 1 = c.toNat)

/-- 00_scope R12, 41_quantizer R74 (IEEE 754 itself: log 11): the product is the finite value nearest
to the exact one, and of two equally near ones the one with the even fraction; its sign is the
exclusive or of the signs. Products in the finite range are finite. -/
def Obligations.ProductIsNearestTiesToEven : Prop :=
  ∀ x y : F64, f64Finite x → f64Finite y →
    f64Sign (fmul64 x y) = (f64Sign x != f64Sign y) ∧
    (|f64Units x * f64Units y| ≤ (2 ^ 53 - 1) * 2 ^ 2045 * 2 ^ 1074 → f64Finite (fmul64 x y)) ∧
    (f64Finite (fmul64 x y) → ∀ z : F64, f64Finite z →
      |f64Units x * f64Units y - f64Units (fmul64 x y) * 2 ^ 1074|
        ≤ |f64Units x * f64Units y - f64Units z * 2 ^ 1074| ∧
      (|f64Units x * f64Units y - f64Units (fmul64 x y) * 2 ^ 1074|
          = |f64Units x * f64Units y - f64Units z * 2 ^ 1074| →
        f64Units z = f64Units (fmul64 x y) ∨ (fmul64 x y).getLsbD 0 = false))

/-- A decimal literal `±coefficient · 10^exponent` has the sign it is written with, is finite when its
value is in the finite range, and then denotes the nearest finite binary64, ties to even; a 0x
literal is the pattern itself (30_encoding R62; that −0 keeps its sign, the ties and what lies beyond
the finite range are the model's: log 12). -/
def Obligations.LiteralDenotesTheNearestValue : Prop :=
  (∀ bits : F64, literalBits (.pattern bits) = bits) ∧
  ∀ (negative : Bool) (coefficient : Nat) (exponent : Int) (x : F64) (value den : Int),
    x = literalBits (.decimal negative coefficient exponent) →
    value = (if negative then -1 else 1) * coefficient * 10 ^ exponent.toNat →
    den = 10 ^ (-exponent).toNat →
    f64Sign x = negative ∧
    (|value| ≤ (2 ^ 53 - 1) * 2 ^ 971 * den → f64Finite x) ∧
    (f64Finite x → ∀ z : F64, f64Finite z →
      |value * 2 ^ 1074 - f64Units x * den| ≤ |value * 2 ^ 1074 - f64Units z * den| ∧
      (|value * 2 ^ 1074 - f64Units x * den| = |value * 2 ^ 1074 - f64Units z * den| →
        f64Units z = f64Units x ∨ x.getLsbD 0 = false))

/-- 00_scope R12 (IEEE 754 itself: log 11): the comparison is the order of the values, and false for
a NaN. -/
def Obligations.ComparisonFollowsTheValues : Prop :=
  ∀ x y : F64,
    (isNaN x = true ∨ isNaN y = true → f64Lt x y = false ∧ f64Gt x y = false) ∧
    (isNaN x = false → isNaN y = false →
      (f64Lt x y = true ↔ f64Units x < f64Units y) ∧
      (f64Gt x y = true ↔ f64Units y < f64Units x))

/-! ### MASK and the Registry -/

/-- 42_channel_mask R79, R80, R81: the mask bit by bit, ALL giving 0xFF, and InvalidArgument when one
of `sel[14:8]` is set, ALL or not. -/
def Obligations.MaskAnswersUnionOrInvalidArgument : Prop :=
  ∀ (sel : PresenceVector) (s : State),
    ((∃ c, 8 ≤ c ∧ c ≤ 14 ∧ sel.getLsbD c = true) →
      Answers (.mask sel) s (.error .invalidArgument)) ∧
    ((∀ c, 8 ≤ c → c ≤ 14 → sel.getLsbD c = false) → ∃ m : ChannelMask,
      Answers (.mask sel) s (.mask m) ∧
      (∀ i, i < 8 → m.getLsbD i = (sel.getLsbD i || sel.getLsbD 15)) ∧
      (sel.getLsbD 15 = true → m = 0xFF#8))

/-- 42_channel_mask R85: the source's own examples, asked for by their label sets. -/
def Obligations.MaskOfTheSourceExamples : Prop :=
  ∀ s : State,
    runCall (.request (.mask ["A", "C"])) s = .next (respond (.mask 0x0005#16) (.mask 0x05#8) s) ∧
    runCall (.request (.mask ["ALL"])) s = .next (respond (.mask 0x8000#16) (.mask 0xFF#8) s) ∧
    runCall (.request (.mask ["B", "ALL"])) s
      = .next (respond (.mask 0x8002#16) (.mask 0xFF#8) s)

/-- A list of known labels is turned into the vector with exactly the labels' codes set, and the core
is asked for that vector's mask (42_channel_mask R82, 30_encoding R55). -/
def Obligations.LabelListBecomesItsPresenceVector : Prop :=
  ∀ (labels : List String) (s : State), (∀ l ∈ labels, ∃ c, lookupChannel l = .ok c) →
    ∃ sel : PresenceVector,
      (∀ c : BitVec 4, sel.getLsbD c.toNat = true ↔ ∃ l ∈ labels, lookupChannel l = .ok c) ∧
      (∀ i, 8 ≤ i → i ≤ 14 → sel.getLsbD i = false) ∧
      ∃ m, Answers (.mask sel) s (.mask m) ∧
        runCall (.request (.mask labels)) s = .next (respond (.mask sel) (.mask m) s)

/-- Order and duplicates do not matter (42_channel_mask R82), also where a label is unknown and the
model's host raises the error itself (log 18). -/
def Obligations.MaskDependsOnTheSetOfLabels : Prop :=
  ∀ (xs ys : List String) (s : State), (∀ l, l ∈ xs ↔ l ∈ ys) →
    presenceOf xs = presenceOf ys ∧
    runCall (.request (.mask xs)) s = runCall (.request (.mask ys)) s

/-- An unknown label gives InvalidArgument and no mask (42_channel_mask R83), whether the host's
lookup finds it, before any request (of the two ways R83 allows for a label set, the model's choice:
log 18), or the vector carries it to the core. -/
def Obligations.UnknownLabelIsInvalidArgument : Prop :=
  (∀ (labels : List String) (l : String) (s : State), l ∈ labels →
    (∀ c, lookupChannel l ≠ .ok c) →
    runCall (.request (.mask labels)) s
      = .next { s with report := some (.raised (.core .invalidArgument)) }) ∧
  (∀ (sel : PresenceVector) (s : State), sel.extractLsb' 8 7 ≠ 0#7 →
    runCall (.request (.maskVector sel)) s
      = .next (respond (.mask sel) (.error .invalidArgument) s))

/-- The two tables, whole, and InvalidArgument for every other symbol (10_state R24, R25, R28; that
symbols are strings matched exactly, letter case included, so that every other string is unknown, is
the model's: log 17). The lookups change nothing but the report (log 20). -/
def Obligations.LookupsReadExactlyTheTables : Prop :=
  (∀ (name : String) (s : State),
    (∀ c : BitVec 4, (name, c) ∈ [("WRITE", 0), ("UPDATE", 1), ("WRITE_AND_UPDATE_ALL", 2),
        ("WRITE_AND_UPDATE", 3), ("POWER_DOWN", 4), ("CLEAR", 5), ("RESET", 7)] →
      runCall (.lookupCommand name) s = .next { s with report := some (.value c) }) ∧
    (name ∉ ["WRITE", "UPDATE", "WRITE_AND_UPDATE_ALL", "WRITE_AND_UPDATE", "POWER_DOWN", "CLEAR",
        "RESET"] →
      runCall (.lookupCommand name) s
        = .next { s with report := some (.raised (.core .invalidArgument)) })) ∧
  (∀ (label : String) (s : State),
    (∀ c : BitVec 4, (label, c) ∈ [("A", 0), ("B", 1), ("C", 2), ("D", 3), ("E", 4), ("F", 5),
        ("G", 6), ("H", 7), ("ALL", 15)] →
      runCall (.lookupChannel label) s = .next { s with report := some (.value c) }) ∧
    (label ∉ ["A", "B", "C", "D", "E", "F", "G", "H", "ALL"] →
      runCall (.lookupChannel label) s
        = .next { s with report := some (.raised (.core .invalidArgument)) }))

/-! ### The reserved select, decoding and the request ports -/

/-- 30_encoding R49, 60_exceptions R110: `op` = 0b11 completes with IllegalOperation whatever the
operands, and nothing else raises it. -/
def Obligations.ReservedSelectRaisesIllegalOperation : Prop :=
  (∀ (r : Request) (s : State), r.op = 0b11#2 →
    runRequest r s = .next (respond .reserved (.error .illegalOperation) s) ∧
    Answers .reserved s (.error .illegalOperation)) ∧
  (∀ (r : Request) (s t : State), runRequest r s = .next t →
    currentResponse t = some (.error .illegalOperation) → r.op = 0b11#2)

/-- Two requests that agree on `op` and on the operand group it selects have the same outcome,
whatever stands on the other ports (10_state R21; that this holds for an integer no port can carry is
the model's: log 23). -/
def Obligations.UnselectedOperandsAreIgnored : Prop :=
  ∀ (r q : Request) (s : State), r.op = q.op →
    (r.op = 0b00#2 → r.pfx = q.pfx ∧ r.control = q.control ∧ r.address = q.address ∧
      r.data = q.data ∧ r.feature = q.feature) →
    (r.op = 0b01#2 → r.v = q.v) →
    (r.op = 0b10#2 → r.sel = q.sel) →
    runRequest r s = runRequest q s

/-- A selected ENCODE operand no 32-bit port can carry is refused, under the name of the first port,
in the order of 10_state R22, that cannot carry its operand; when the ports carry all five, the
instruction runs (40_word_encoder R65, 93_implementation_defined I12; the name is the model's: log
6). -/
def Obligations.OperandBeyondItsPortIsRefused : Prop :=
  ∀ (r : Request) (s : State) (operands : List (EncodePort × Int)), r.op = 0b00#2 →
    operands = [(.pfx, r.pfx), (.control, r.control), (.address, r.address), (.data, r.data),
      (.feature, r.feature)] →
    ((∀ x ∈ operands, -2 ^ 31 ≤ x.2 ∧ x.2 ≤ 2 ^ 31 - 1) →
      runRequest r s = exec (.encode r.pfx r.control r.address r.data r.feature) s) ∧
    (∀ before port x after, operands = before ++ (port, x) :: after →
      (∀ y ∈ before, -2 ^ 31 ≤ y.2 ∧ y.2 ≤ 2 ^ 31 - 1) → ¬ (-2 ^ 31 ≤ x ∧ x ≤ 2 ^ 31 - 1) →
      runRequest r s = .refused (.operandBeyondPort port))

/-- Every port bit string decodes, and `op` alone tells the operations apart (30_encoding R48; the
place of `op` in the bit string is the model's: log 2). -/
def Obligations.SelectDecidesTheOperation : Prop :=
  ∀ b : BitVec 242, ∃ i : Instr, decodeBits b = .ok i ∧ i.wellFormed = true ∧
    (b.extractLsb' 0 2 = 0b00#2 ↔ ∃ p c a d f, i = .encode p c a d f) ∧
    (b.extractLsb' 0 2 = 0b01#2 ↔ ∃ v, i = .quantize v) ∧
    (b.extractLsb' 0 2 = 0b10#2 ↔ ∃ sel, i = .mask sel) ∧
    (b.extractLsb' 0 2 = 0b11#2 ↔ i = .reserved)

/-- Decode and encode agree for every well-formed instruction and every operand (the layout of the
ports in one bit string is the model's: log 2). -/
def Obligations.DecodeOfEncodeIsTheInstruction : Prop :=
  ∀ i : Instr, i.wellFormed = true →
    decodeBits (encode i) = .ok i ∧ decodeTableWord 242 (encode i).toNat = some i

/-- The four words of the opcode table (30_encoding R48, R49), with zero on the ports they give no
bits, and one ENCODE whose operands are written out on their ports (the order of the ports, and that
missing bits are zero, are the model's: log 2). -/
def Obligations.OpcodeTableWordsDecode : Prop :=
  decodeTableWord 8 0b00 = some (.encode 0 0 0 0 0) ∧
  decodeTableWord 8 0b01 = some (.quantize 0x0000000000000000#64) ∧
  decodeTableWord 8 0b10 = some (.mask 0x0000#16) ∧
  decodeTableWord 8 0b11 = some .reserved ∧
  decodeBits (0x0000#16 ++ 0x0000000000000000#64 ++ 0x00000008#32 ++ 0x00004567#32
    ++ 0x00000003#32 ++ 0x00000002#32 ++ 0xFFFFFFFF#32 ++ 0b00#2) = .ok (.encode (-1) 2 3 0x4567 8)

/-! ### The step -/

/-- A step runs the decoded instruction: when the next host step presents a request that decodes to
`i`, the step is `exec i` at the state with the position moved on and the report cleared; so is it
for a request put in place by `withFetchWord` (the host's list and its load are the model's: log 1;
so is the report and its clearing: log 20). -/
def Obligations.StepRunsTheDecodedInstruction : Prop :=
  (∀ (s : State) (line : RequestLine) (r : Request) (i : Instr),
    nextHostStep s = some (.call (.request line)) → present line (advance s) = .request r →
    decode r = .ok i →
    step s = exec i { s with position := s.position + 1, report := none }) ∧
  (∀ (s : State) (nbits w : Nat) (i : Instr), decodeTableWord nbits w = some i →
    step (s.withFetchWord nbits w)
      = exec i { s.withFetchWord nbits w with
          position := min s.position s.program.length + 1, report := none })

/-- Every host call of the program, a request among them, runs as the call does, the position having
moved on and the report being cleared (that an entry of the list may be any host call is the model's:
log 1; so is the report: log 20). -/
def Obligations.StepRunsTheHostCall : Prop :=
  ∀ (s : State) (c : HostCall), nextHostStep s = some (.call c) →
    step s = runCall c { s with position := s.position + 1, report := none }

/-- 10_state R17: the index advances by one per host step, whatever the response, and the program
stays (that the entries are host steps, not only requests, is the model's: log 1). With no next entry
the machine stops, also the model's choice (log 3). -/
def Obligations.PositionAdvancesByOne : Prop :=
  (∀ s t : State, step s = .next t → t.position = s.position + 1 ∧ t.program = s.program) ∧
  (∀ s : State, step s = .fault .noHostStep ↔ s.program.length ≤ s.position)

/-- 20_memory R47: a second call while one is in progress has no behaviour, and nothing else is
refused for that reason. -/
def Obligations.ConcurrentCallsAreRefused : Prop :=
  ∀ s : State, step s = .refused .concurrentInvocation ↔
    ∃ c d, nextHostStep s = some (.concurrent c d)

/-- A line whose operand names an earlier QUANTIZE result presents that code (30_encoding R62; log
13); one that names a failed result is refused, since a result that is not defined must not be read
(10_state R23). -/
def Obligations.NamedResultIsTheEarlierCode : Prop :=
  ∀ (s : State) (t : Nat) (p c a f : Operand),
    (∀ q : DacCode, responseAt t s = some (.code q) →
      runCall (.request (.encode p c a (.result t) f)) s
        = runCall (.request (.encode p c a (.int q.toNat) f)) s) ∧
    (∀ e, responseAt t s = some (.error e) → ∃ u,
      runCall (.request (.encode p c a (.result t) f)) s = .refused (.undefinedResult u))

/-- 40_word_encoder R66, 70_reset_and_hazards R133: there are no bytes of a failed request to send.
A write of the bytes of a response that is no encoded word has no behaviour. -/
def Obligations.FailedResultIsNeverSent : Prop :=
  ∀ (s : State) (t : Nat),
    (∀ e, responseAt t s = some (.error e) →
      runCall (.write (.result t)) s = .refused (.undefinedResult t)) ∧
    (∀ w b, responseAt t s = some (.encoded w b) → CallWrites (.write (.result t)) s [] b)

/-- A write that returns is appended to `transport_log`; one that raises IOError adds nothing
(10_state R30). It needs no Facade (log 19). -/
def Obligations.TransportLogHoldsTheWritesThatReturned : Prop :=
  ∀ (s : State) (f : Frame), CallWrites (.write (.bytes f)) s [] f

/-! ### The Device Facade -/

/-- 43_host_compositions R93 to R97: the five fixed-word operations. Each makes one ENCODE request
and one write of the word's bytes; an IOError passes on. -/
def Obligations.FixedWordOperationsSendTheirWords : Prop :=
  ∀ s : State, s.facade = .initialized →
    CallWrites (.facade .softwareReset) s
      [⟨.encode 0 7 0 0x0000 0, .encoded 0x07000000#32 ⟨0x07#8, 0x00#8, 0x00#8, 0x00#8⟩⟩]
      ⟨0x07#8, 0x00#8, 0x00#8, 0x00#8⟩ ∧
    CallWrites (.facade .internalReferenceOn) s
      [⟨.encode 0 9 0 0xA000 0, .encoded 0x090A0000#32 ⟨0x09#8, 0x0A#8, 0x00#8, 0x00#8⟩⟩]
      ⟨0x09#8, 0x0A#8, 0x00#8, 0x00#8⟩ ∧
    CallWrites (.facade .clearAllToZero) s
      [⟨.encode 0 5 0 0x0000 0, .encoded 0x05000000#32 ⟨0x05#8, 0x00#8, 0x00#8, 0x00#8⟩⟩]
      ⟨0x05#8, 0x00#8, 0x00#8, 0x00#8⟩ ∧
    CallWrites (.facade .clearAllToMid) s
      [⟨.encode 0 5 0 0x0000 1, .encoded 0x05000001#32 ⟨0x05#8, 0x00#8, 0x00#8, 0x01#8⟩⟩]
      ⟨0x05#8, 0x00#8, 0x00#8, 0x01#8⟩ ∧
    CallWrites (.facade .clearAllToFull) s
      [⟨.encode 0 5 0 0x0000 2, .encoded 0x05000002#32 ⟨0x05#8, 0x00#8, 0x00#8, 0x02#8⟩⟩]
      ⟨0x05#8, 0x00#8, 0x00#8, 0x02#8⟩

/-- 43_host_compositions R98, R99, R100: lookup, QUANTIZE, ENCODE and one write, with control 0, 3
and 2, prefix 0 and feature 0; InvalidArgument comes before RangeError. -/
def Obligations.ValueOperationsSendTheQuantizedValue : Prop :=
  ∀ (ch : String) (x : F64) (s : State) (op : FacadeOp) (control : Nat),
    s.facade = .initialized →
    (op, control) ∈ [(FacadeOp.writeToRegister ch x, 0), (FacadeOp.writeAndUpdate ch x, 3),
      (FacadeOp.writeAndUpdateAll ch x, 2)] →
    ((∀ a, lookupChannel ch ≠ .ok a) → CallFails (.facade op) s [] .invalidArgument) ∧
    (∀ a, lookupChannel ch = .ok a → ¬ LegalUnit x →
      CallFails (.facade op) s [⟨.quantize x, .error .rangeError⟩] .rangeError) ∧
    (∀ a, lookupChannel ch = .ok a → LegalUnit x → ∃ (q : DacCode) (w : Word),
      Answers (.quantize x) s (.code q) ∧
      w.toNat = control * 2 ^ 24 + a.toNat * 2 ^ 20 + q.toNat * 2 ^ 4 ∧
      CallWrites (.facade op) s
        [⟨.quantize x, .code q⟩, ⟨.encode 0 control a.toNat q.toNat 0, .encoded w (serialize w)⟩]
        (serialize w))

/-- 43_host_compositions R101: `update_channel`. -/
def Obligations.UpdateChannelSendsTheChannelCode : Prop :=
  ∀ (ch : String) (s : State), s.facade = .initialized →
    ((∀ a, lookupChannel ch ≠ .ok a) →
      CallFails (.facade (.updateChannel ch)) s [] .invalidArgument) ∧
    (∀ a, lookupChannel ch = .ok a → ∃ w : Word,
      w.toNat = 1 * 2 ^ 24 + a.toNat * 2 ^ 20 ∧
      CallWrites (.facade (.updateChannel ch)) s
        [⟨.encode 0 1 a.toNat 0x0000 0, .encoded w (serialize w)⟩] (serialize w))

/-- The AND-composed word is zero for every mask, and the two operations send four zero bytes for
every valid channel set (43_host_compositions R102, R103; that the word is zero the spec marks as its
own inference in R104). -/
def Obligations.AndComposedOperationsSendZero : Prop :=
  (ldacOpcode = 0x03000000#32 ∧ powerUpOpcode = 0x04000000#32 ∧ ∀ m : ChannelMask,
    andComposed ldacOpcode m = 0x00000000#32 ∧ andComposed powerUpOpcode m = 0x00000000#32) ∧
  ∀ (chs : List String) (s : State) (op : FacadeOp), s.facade = .initialized →
    op = .writeToLdacRegister chs ∨ op = .powerUpDac chs →
    ((∃ l ∈ chs, ∀ c, lookupChannel l ≠ .ok c) →
      CallFails (.facade op) s [] .invalidArgument) ∧
    ((∀ l ∈ chs, ∃ c, lookupChannel l = .ok c) → ∃ sel m,
      presenceOf chs = .ok sel ∧ Answers (.mask sel) s (.mask m) ∧
      CallWrites (.facade op) s [⟨.mask sel, .mask m⟩] ⟨0x00#8, 0x00#8, 0x00#8, 0x00#8⟩)

/-- 43_host_compositions R88: a public operation that returns has made exactly one write; one that
fails with a core error has made none. Every operation of an Initialized Facade completes. -/
def Obligations.OneWritePerSuccessfulOperation : Prop :=
  ∀ (op : FacadeOp) (s : State), s.facade = .initialized →
    ∃ t, runCall (.facade op) s = .next t ∧
      ((t.report = some .returned ∧ t.writeAttempts = s.writeAttempts + 1 ∧
          ∃ f, t.transportLog = s.transportLog ++ [f]) ∨
        (t.report = some (.raised .ioError) ∧ t.writeAttempts = s.writeAttempts + 1 ∧
          t.transportLog = s.transportLog) ∨
        ((t.report = some (.raised (.core .rangeError)) ∨
            t.report = some (.raised (.core .invalidArgument))) ∧
          t.writeAttempts = s.writeAttempts ∧ t.transportLog = s.transportLog))

/-- 43_host_compositions R89: a Facade operation reads no state: in two states that agree on the
Transport's next answer it sends the same frames, makes the same requests and gives the same report,
and `facade_state` stays. -/
def Obligations.FacadeOperationsArePassThroughs : Prop :=
  ∀ (op : FacadeOp) (s₁ s₂ : State), s₁.facade = .initialized → s₂.facade = .initialized →
    transportAnswer s₁ = transportAnswer s₂ →
    ∃ requests frames attempts report,
      runCall (.facade op) s₁ = .next (afterCall s₁ requests frames attempts report) ∧
      runCall (.facade op) s₂ = .next (afterCall s₂ requests frames attempts report)

/-- 60_exceptions R114, for every operation with a lookup: the first error in the order of the
composition is the one reported, and no later part runs. An unknown channel wins over a value out of
range and over a failing Transport, with no request made; a value out of range wins over a failing
Transport, with QUANTIZE the only request (in both `CallFails` says that no write is attempted and
nothing is logged); IOError comes when neither applies, from the one write. -/
def Obligations.FirstErrorOfACompositionIsReported : Prop :=
  ∀ s : State, s.facade = .initialized →
    (∀ (ch : String) (x : F64) (op : FacadeOp),
      op ∈ [.writeToRegister ch x, .writeAndUpdate ch x, .writeAndUpdateAll ch x] →
      ((∀ a, lookupChannel ch ≠ .ok a) → CallFails (.facade op) s [] .invalidArgument) ∧
      ((∃ a, lookupChannel ch = .ok a) → ¬ LegalUnit x →
        CallFails (.facade op) s [⟨.quantize x, .error .rangeError⟩] .rangeError) ∧
      ((∃ a, lookupChannel ch = .ok a) → LegalUnit x → transportAnswer s = .ioError →
        ∃ q i w, runCall (.facade op) s = .next (afterCall s
          [⟨.quantize x, .code q⟩, ⟨i, .encoded w (serialize w)⟩] [] 1 (.raised .ioError)))) ∧
    (∀ ch : String,
      ((∀ a, lookupChannel ch ≠ .ok a) →
        CallFails (.facade (.updateChannel ch)) s [] .invalidArgument) ∧
      ((∃ a, lookupChannel ch = .ok a) → transportAnswer s = .ioError →
        ∃ i w, runCall (.facade (.updateChannel ch)) s = .next (afterCall s
          [⟨i, .encoded w (serialize w)⟩] [] 1 (.raised .ioError)))) ∧
    (∀ (chs : List String) (op : FacadeOp), op ∈ [.writeToLdacRegister chs, .powerUpDac chs] →
      ((∃ l ∈ chs, ∀ a, lookupChannel l ≠ .ok a) →
        CallFails (.facade op) s [] .invalidArgument) ∧
      ((∀ l ∈ chs, ∃ a, lookupChannel l = .ok a) → transportAnswer s = .ioError →
        ∃ sel m, runCall (.facade op) s = .next (afterCall s
          [⟨.mask sel, .mask m⟩] [] 1 (.raised .ioError))))

/-- 70_reset_and_hazards R127: construction makes the two writes in order and then is Initialized
(in a machine that has a Facade already, a new one takes its place: log 15). -/
def Obligations.ConstructionSendsBothWords : Prop :=
  ∀ s : State, comingAnswer 0 s = .accepts → comingAnswer 1 s = .accepts →
    runCall .construct s
      = .next { afterCall s [softwareResetExchange, internalReferenceExchange]
          [softwareResetFrame, internalReferenceFrame] 2 .returned with facade := .initialized }

/-- An IOError in either write of the construction: it stops at once and the Facade is Uninitialized
(70_reset_and_hazards R130; that a failed construction leaves a machine whose Facade was Initialized
Uninitialized is the model's: log 15). -/
def Obligations.FailedConstructionStaysUninitialized : Prop :=
  ∀ s : State,
    (comingAnswer 0 s = .ioError →
      runCall .construct s
        = .next { afterCall s [softwareResetExchange] [] 1 (.raised .ioError) with
            facade := .uninitialized }) ∧
    (comingAnswer 0 s = .accepts → comingAnswer 1 s = .ioError →
      runCall .construct s
        = .next { afterCall s [softwareResetExchange, internalReferenceExchange]
            [softwareResetFrame] 2 (.raised .ioError) with facade := .uninitialized })

/-- 70_reset_and_hazards R129: a Facade operation is refused exactly while the Facade is
Uninitialized. -/
def Obligations.FacadeRefusesUntilInitialized : Prop :=
  ∀ s : State, step s = .refused .facadeUninitialized ↔
    s.facade = .uninitialized ∧ ∃ op, nextHostStep s = some (.call (.facade op))

/-- 70_reset_and_hazards R128: only a new construction changes `facade_state`, either way. -/
def Obligations.OnlyConstructionChangesFacadeState : Prop :=
  ∀ s t : State, step s = .next t → t.facade ≠ s.facade →
    nextHostStep s = some (.call .construct)

/-- `transport_log` and the record of exchanges only grow, by at most two frames a step, and by two
only when a Facade is constructed (20_memory R42, 10_state R30). -/
def Obligations.HistoryOnlyGrows : Prop :=
  ∀ s t : State, step s = .next t → ∃ frames es,
    t.transportLog = s.transportLog ++ frames ∧ t.exchanges = s.exchanges ++ es ∧
    frames.length ≤ 2 ∧
    (frames.length = 2 → nextHostStep s = some (.call .construct)) ∧
    t.writeAttempts ≤ s.writeAttempts + 2

/-- 30_encoding R63: a Facade operation does in one step what its expansion into core requests and a
write does step by step, whenever no core error ends it. -/
def Obligations.FacadeOperationEqualsItsExpansion : Prop :=
  ∀ (op : FacadeOp) (s t : State) (calls : List HostCall) (rest : List HostStep),
    s.facade = .initialized →
    expandFacade op s.exchanges.length = .ok calls →
    s.program.drop s.position = calls.map HostStep.call ++ rest →
    runCall (.facade op) s = .next t →
    (∀ e, t.report ≠ some (.raised (.core e))) →
    runSteps calls.length s = .next { t with position := s.position + calls.length }

/-! ### Reset and the invariant -/

/-- 10_state R31: the values the spec gives for reset, the constant tables among them. -/
def Obligations.ResetStateIsAsStated : Prop :=
  currentResponse State.reset = none ∧ State.reset.facade = .uninitialized ∧
  State.reset.transportLog = [] ∧
  commandTable = [("WRITE", 0), ("UPDATE", 1), ("WRITE_AND_UPDATE_ALL", 2), ("WRITE_AND_UPDATE", 3),
    ("POWER_DOWN", 4), ("CLEAR", 5), ("RESET", 7)] ∧
  channelTable = [("A", 0), ("B", 1), ("C", 2), ("D", 3), ("E", 4), ("F", 5), ("G", 6), ("H", 7),
    ("ALL", 15)]

/-- The invariant holds at reset (the empty program and position 0 there are the model's: log 1). -/
def Obligations.ResetMeetsTheInvariant : Prop :=
  Inv State.reset

/-- Every step keeps the invariant: recorded responses are functions of their requests (10_state
R15), an Initialized Facade has sent its two words one after the other (70_reset_and_hazards R131),
and the position stays in the program. -/
def Obligations.StepKeepsTheInvariant : Prop :=
  ∀ s t : State, Inv s → step s = .next t → Inv t
end

