-- ==== Sys2Proof/Laws/State.lean ====
section
/-!
SUPPORT. One lemma per field of each state update, so that no proof unfolds a record update.
-/

namespace Sys2Proof.Machine

section Advance
variable (s : State)

@[simp] theorem advance_program : (advance s).program = s.program := rfl
@[simp] theorem advance_position : (advance s).position = s.position + 1 := rfl
@[simp] theorem advance_exchanges : (advance s).exchanges = s.exchanges := rfl
@[simp] theorem advance_facade : (advance s).facade = s.facade := rfl
@[simp] theorem advance_transportLog : (advance s).transportLog = s.transportLog := rfl
@[simp] theorem advance_report : (advance s).report = none := rfl
@[simp] theorem advance_transportPlan : (advance s).transportPlan = s.transportPlan := rfl
@[simp] theorem advance_writeAttempts : (advance s).writeAttempts = s.writeAttempts := rfl

end Advance

section Respond
variable (i : Instr) (r : Response) (s : State)

@[simp] theorem respond_program : (respond i r s).program = s.program := rfl
@[simp] theorem respond_position : (respond i r s).position = s.position := rfl
@[simp] theorem respond_exchanges : (respond i r s).exchanges = s.exchanges ++ [⟨i, r⟩] := rfl
@[simp] theorem respond_facade : (respond i r s).facade = s.facade := rfl
@[simp] theorem respond_transportLog : (respond i r s).transportLog = s.transportLog := rfl
@[simp] theorem respond_report : (respond i r s).report = s.report := rfl
@[simp] theorem respond_transportPlan : (respond i r s).transportPlan = s.transportPlan := rfl
@[simp] theorem respond_writeAttempts : (respond i r s).writeAttempts = s.writeAttempts := rfl

end Respond

/-- Taking an error is answering with it, and nothing else. -/
theorem raiseError_eq_respond (e : CoreError) (i : Instr) (s : State) :
    raiseError e i s = respond i (.error e) s := rfl

section AfterCall
variable (s : State) (requests : List Exchange) (frames : List Frame) (attempts : Nat)
  (report : Report)

@[simp] theorem afterCall_program :
    (afterCall s requests frames attempts report).program = s.program := rfl
@[simp] theorem afterCall_position :
    (afterCall s requests frames attempts report).position = s.position := rfl
@[simp] theorem afterCall_exchanges :
    (afterCall s requests frames attempts report).exchanges = s.exchanges ++ requests := rfl
@[simp] theorem afterCall_facade :
    (afterCall s requests frames attempts report).facade = s.facade := rfl
@[simp] theorem afterCall_transportLog :
    (afterCall s requests frames attempts report).transportLog = s.transportLog ++ frames := rfl
@[simp] theorem afterCall_report :
    (afterCall s requests frames attempts report).report = some report := rfl
@[simp] theorem afterCall_transportPlan :
    (afterCall s requests frames attempts report).transportPlan
      = s.transportPlan.drop attempts := rfl
@[simp] theorem afterCall_writeAttempts :
    (afterCall s requests frames attempts report).writeAttempts
      = s.writeAttempts + attempts := rfl

end AfterCall

@[simp] theorem reset_program : State.reset.program = [] := rfl
@[simp] theorem reset_position : State.reset.position = 0 := rfl
@[simp] theorem reset_exchanges : State.reset.exchanges = [] := rfl
@[simp] theorem reset_facade : State.reset.facade = .uninitialized := rfl
@[simp] theorem reset_transportLog : State.reset.transportLog = [] := rfl
@[simp] theorem reset_report : State.reset.report = none := rfl

end Sys2Proof.Machine
end

