-- ==== Sys2Proof/Laws/Binary64.lean ====
section
/-!
SUPPORT. binary64: a magnitude and the value it stands for, and what the one rounding does: it is
monotonic, exact on representable values, and nothing is nearer.
-/

namespace Sys2Proof.Machine

/-- The absolute value, in units of 2^-1074, that a magnitude stands for. -/
def unitsOf (m : Nat) : Nat :=
  if m / 2 ^ 52 = 0 then m % 2 ^ 52 else (2 ^ 52 + m % 2 ^ 52) * 2 ^ (m / 2 ^ 52 - 1)

theorem f64Magnitude_lt (x : F64) : f64Magnitude x < 2 ^ 63 := (x.extractLsb' 0 63).isLt

theorem f64Exponent_eq (x : F64) : f64Exponent x = f64Magnitude x / 2 ^ 52 := by
  have h := x.isLt
  simp only [f64Exponent, f64Magnitude, BitVec.extractLsb'_toNat, Nat.shiftRight_eq_div_pow]
  omega

theorem f64Fraction_eq (x : F64) : f64Fraction x = f64Magnitude x % 2 ^ 52 := by
  have h := x.isLt
  simp only [f64Fraction, f64Magnitude, BitVec.extractLsb'_toNat, Nat.shiftRight_eq_div_pow]
  omega

theorem significand_scale (x : F64) :
    f64Significand x * 2 ^ f64Scale x = unitsOf (f64Magnitude x) := by
  unfold f64Significand f64Scale unitsOf
  rw [f64Exponent_eq, f64Fraction_eq]
  by_cases h : f64Magnitude x / 2 ^ 52 = 0
  · rw [if_pos h, if_pos h, h]; simp
  · rw [if_neg h, if_neg h]

theorem unitsOf_zero : unitsOf 0 = 0 := by simp [unitsOf]

/-- `R · 2^k` in the form the rounding produces. -/
theorem unitsOf_scaled {k R : Nat} (hR : R ≤ 2 ^ 53) (hk : k = 0 ∨ 2 ^ 52 ≤ R) :
    unitsOf (k * 2 ^ 52 + R) = R * 2 ^ k := by
  unfold unitsOf
  by_cases h1 : R < 2 ^ 52
  · have hk0 : k = 0 := by omega
    subst hk0
    rw [if_pos (by omega)]; simp; omega
  · by_cases h2 : R < 2 ^ 53
    · have e1 : (k * 2 ^ 52 + R) / 2 ^ 52 = k + 1 := by omega
      have e2 : (k * 2 ^ 52 + R) % 2 ^ 52 = R - 2 ^ 52 := by omega
      have e3 : 2 ^ 52 + (R - 2 ^ 52) = R := by omega
      rw [if_neg (by omega), e1, e2, e3, Nat.add_sub_cancel]
    · have e0 : R = 2 * 2 ^ 52 := by omega
      have e1 : (k * 2 ^ 52 + R) / 2 ^ 52 = k + 2 := by omega
      have e2 : (k * 2 ^ 52 + R) % 2 ^ 52 = 0 := by omega
      have e3 : k + 2 - 1 = k + 1 := by omega
      have e4 : ∀ c : Nat, (c + 0) * 2 ^ (k + 1) = 2 * c * 2 ^ k := by
        intro c; rw [pow_succ]; ring
      rw [if_neg (by omega), e1, e2, e3]
      exact (e4 (2 ^ 52)).trans (by rw [e0])

/-- Every magnitude has that form. -/
theorem magnitude_form (m : Nat) :
    ∃ k R, m = k * 2 ^ 52 + R ∧ R < 2 ^ 53 ∧ (k = 0 ∨ 2 ^ 52 ≤ R) := by
  by_cases h : m < 2 ^ 52
  · exact ⟨0, m, by omega, by omega, .inl rfl⟩
  · exact ⟨m / 2 ^ 52 - 1, m % 2 ^ 52 + 2 ^ 52, by omega, by omega, .inr (by omega)⟩

theorem unitsOf_succ_lt (m : Nat) : unitsOf m < unitsOf (m + 1) := by
  obtain ⟨k, R, rfl, hR, hk⟩ := magnitude_form m
  rw [unitsOf_scaled hR.le hk, Nat.add_assoc, unitsOf_scaled (by omega) (by omega)]
  exact Nat.mul_lt_mul_of_pos_right (Nat.lt_succ_self R) (Nat.two_pow_pos k)

theorem unitsOf_strictMono : StrictMono unitsOf := strictMono_nat_of_lt_succ unitsOf_succ_lt

section Rounding

/-- Round to nearest: no other multiple is nearer, and an equally near one means an even result. -/
theorem roundHalfEven_spec (num den : Nat) (hd : 0 < den) :
    let R := roundHalfEven num den
    (2 * num ≤ (2 * R + 1) * den ∧ 2 * R * den ≤ 2 * num + den) ∧
    ((2 * num = (2 * R + 1) * den ∨ 2 * R * den = 2 * num + den) → R % 2 = 0) := by
  intro R
  have hdm := Nat.div_add_mod num den
  have hlt := Nat.mod_lt num hd
  have hR : R = roundHalfEven num den := rfl
  unfold roundHalfEven at hR
  simp only at hR
  clear_value R
  generalize num / den = q at *
  generalize num % den = r at *
  subst hdm
  split at hR
  · rename_i h; subst hR
    have e1 : (2 * (q + 1) + 1) * den = 2 * (den * q) + 3 * den := by ring
    have e2 : 2 * (q + 1) * den = 2 * (den * q) + 2 * den := by ring
    rw [e1, e2]
    omega
  · rename_i h; subst hR
    have e1 : (2 * R + 1) * den = 2 * (den * R) + den := by ring
    have e2 : 2 * R * den = 2 * (den * R) := by ring
    rw [e1, e2]
    omega

theorem roundHalfEven_mono {a b : Nat} (den : Nat) (h : a ≤ b) :
    roundHalfEven a den ≤ roundHalfEven b den := by
  rcases Nat.eq_zero_or_pos den with rfl | hd
  · simp [roundHalfEven]; split <;> split <;> omega
  obtain ⟨⟨a1, a2⟩, a3⟩ := roundHalfEven_spec a den hd
  obtain ⟨⟨b1, b2⟩, b3⟩ := roundHalfEven_spec b den hd
  generalize roundHalfEven a den = x at *
  generalize roundHalfEven b den = y at *
  by_contra hc
  have hxy : y + 1 ≤ x := by omega
  have h1 : (2 * (y + 1)) * den ≤ 2 * x * den := by nlinarith
  have h2 : 2 * x * den = 2 * a + den ∧ 2 * b = (2 * y + 1) * den ∧ x = y + 1 := by
    have e : (2 * (y + 1)) * den = (2 * y + 1) * den + den := by ring
    refine ⟨by omega, by omega, ?_⟩
    have : 2 * x * den = 2 * (y + 1) * den := by omega
    have := Nat.eq_of_mul_eq_mul_right hd this
    omega
  have := a3 (.inr h2.1)
  have := b3 (.inl h2.2.1)
  omega

theorem roundHalfEven_mul (q den : Nat) (hd : 0 < den) : roundHalfEven (q * den) den = q := by
  obtain ⟨⟨a1, a2⟩, _⟩ := roundHalfEven_spec (q * den) den hd
  generalize roundHalfEven (q * den) den = x at *
  have h1 : 2 * q * den ≤ (2 * x + 1) * den := by linarith [a1]
  have h2 : 2 * x * den ≤ (2 * q + 1) * den := by linarith [a2]
  have := Nat.le_of_mul_le_mul_right h1 hd
  have := Nat.le_of_mul_le_mul_right h2 hd
  omega

/-- The exponent the rounding chooses for `num / den`. -/
def roundScale (num den : Nat) : Nat := Nat.log2 (num / den) + 1 - 53

theorem roundScale_mono {a b den : Nat} (h : a ≤ b) : roundScale a den ≤ roundScale b den := by
  unfold roundScale
  have := Nat.log_mono_right (b := 2) (Nat.div_le_div_right h : a / den ≤ b / den)
  rw [Nat.log2_eq_log_two, Nat.log2_eq_log_two]
  omega

/-- The rounded significand: at most 53 bits and a carry, and full when scaled. -/
theorem roundScale_spec {num den : Nat} (hd : 0 < den) :
    num < 2 ^ 53 * (den * 2 ^ roundScale num den) ∧
    (roundScale num den = 0 ∨ 2 ^ 52 * (den * 2 ^ roundScale num den) ≤ num) := by
  unfold roundScale
  set q := num / den with hq
  have hnum : num < (q + 1) * den := by
    have := Nat.div_add_mod num den; have := Nat.mod_lt num hd; rw [← hq] at *; nlinarith
  have hnum' : q * den ≤ num := Nat.div_mul_le_self num den
  rcases Nat.eq_zero_or_pos q with h0 | h0
  · rw [h0] at hnum ⊢
    simp
    nlinarith
  have hlt : q < 2 ^ (Nat.log2 q + 1) := Nat.lt_log2_self
  have hle : 2 ^ Nat.log2 q ≤ q := Nat.log2_self_le (by omega)
  generalize Nat.log2 q = L at *
  constructor
  · have : q + 1 ≤ 2 ^ 53 * 2 ^ (L + 1 - 53) := by
      rw [← pow_add]
      exact Nat.le_trans hlt (Nat.pow_le_pow_right (by norm_num) (by omega))
    calc num < (q + 1) * den := hnum
      _ ≤ (2 ^ 53 * 2 ^ (L + 1 - 53)) * den := Nat.mul_le_mul_right _ this
      _ = _ := by ring
  · by_cases hL : L + 1 ≤ 53
    · left; omega
    · right
      have : 2 ^ 52 * 2 ^ (L + 1 - 53) ≤ q := by
        rw [← pow_add]; convert hle using 2; omega
      calc 2 ^ 52 * (den * 2 ^ (L + 1 - 53)) = (2 ^ 52 * 2 ^ (L + 1 - 53)) * den := by ring
        _ ≤ q * den := Nat.mul_le_mul_right _ this
        _ ≤ num := hnum'

/-- The rounded significand. -/
def roundSignificand (num den : Nat) : Nat := roundHalfEven num (den * 2 ^ roundScale num den)

theorem roundSignificand_spec {num den : Nat} (hd : 0 < den) :
    roundSignificand num den ≤ 2 ^ 53 ∧
    (roundScale num den = 0 ∨ 2 ^ 52 ≤ roundSignificand num den) := by
  obtain ⟨h1, h2⟩ := roundScale_spec (num := num) hd
  have hD : 0 < den * 2 ^ roundScale num den := Nat.mul_pos hd (Nat.two_pow_pos _)
  refine ⟨?_, h2.imp id fun h => ?_⟩
  · have := roundHalfEven_mono (den * 2 ^ roundScale num den) h1.le
    rwa [roundHalfEven_mul _ _ hD] at this
  · have := roundHalfEven_mono (den * 2 ^ roundScale num den) h
    rwa [roundHalfEven_mul _ _ hD] at this

/-- The rounded magnitude before the limit at infinity. -/
def roundMagnitude (num den : Nat) : Nat := roundScale num den * 2 ^ 52 + roundSignificand num den

theorem roundMagnitude_zero (den : Nat) (hd : 0 < den): roundMagnitude 0 den = 0 := by
  simp [roundMagnitude, roundScale, roundSignificand]
  have := roundHalfEven_mul 0 den hd
  simpa using this

theorem nearestMagnitude_eq (num den : Nat) (hd : 0 < den) :
    nearestMagnitude num den = min (roundMagnitude num den) infinityMagnitude := by
  unfold nearestMagnitude
  split
  · rename_i h; subst h; rw [roundMagnitude_zero _ hd]; simp
  · rfl

theorem unitsOf_roundMagnitude {num den : Nat} (hd : 0 < den) :
    unitsOf (roundMagnitude num den) = roundSignificand num den * 2 ^ roundScale num den := by
  obtain ⟨h1, h2⟩ := roundSignificand_spec (num := num) hd
  exact unitsOf_scaled h1 h2

theorem roundMagnitude_mono {a b den : Nat} (hd : 0 < den) (h : a ≤ b) :
    roundMagnitude a den ≤ roundMagnitude b den := by
  have hk := roundScale_mono (den := den) h
  obtain ⟨a1, a2⟩ := roundSignificand_spec (num := a) hd
  obtain ⟨b1, b2⟩ := roundSignificand_spec (num := b) hd
  unfold roundMagnitude
  rcases Nat.eq_or_lt_of_le hk with he | hlt
  · have : roundSignificand a den ≤ roundSignificand b den := by
      unfold roundSignificand; rw [he]; exact roundHalfEven_mono _ h
    omega
  · omega

theorem nearestMagnitude_mono {a b den : Nat} (hd : 0 < den) (h : a ≤ b) :
    nearestMagnitude a den ≤ nearestMagnitude b den := by
  rw [nearestMagnitude_eq _ _ hd, nearestMagnitude_eq _ _ hd]
  have := roundMagnitude_mono hd h
  omega

/-- A value that is representable is its own rounding. -/
theorem roundMagnitude_exact (m den : Nat) (hd : 0 < den) : roundMagnitude (unitsOf m * den) den = m := by
  obtain ⟨k, R, rfl, hR, hk⟩ := magnitude_form m
  apply unitsOf_strictMono.injective
  rw [unitsOf_roundMagnitude hd, unitsOf_scaled hR.le hk]
  -- the chosen scale is at most k
  have hs : roundScale (R * 2 ^ k * den) den ≤ k := by
    unfold roundScale
    rw [Nat.mul_div_cancel _ hd]
    rcases Nat.eq_zero_or_pos R with rfl | hpos
    · simp
    have : Nat.log2 (R * 2 ^ k) < 53 + k := by
      rw [Nat.log2_lt (by positivity)]
      rw [pow_add]; exact Nat.mul_lt_mul_of_pos_right hR (Nat.two_pow_pos k)
    omega
  unfold roundSignificand
  generalize roundScale (R * 2 ^ k * den) den = j at *
  have e : R * 2 ^ k * den = (R * 2 ^ (k - j)) * (den * 2 ^ j) := by
    have : (2:ℕ) ^ k = 2 ^ (k - j) * 2 ^ j := by rw [← pow_add]; congr 1; omega
    rw [this]; ring
  rw [e, roundHalfEven_mul _ _ (Nat.mul_pos hd (Nat.two_pow_pos j)), Nat.mul_assoc, ← pow_add]
  congr 2; omega

theorem nearestMagnitude_exact {m den : Nat} (hd : 0 < den) (hm : m ≤ infinityMagnitude) :
    nearestMagnitude (unitsOf m * den) den = m := by
  rw [nearestMagnitude_eq _ _ hd, roundMagnitude_exact m den hd]
  omega

/-- No magnitude is nearer to `num / den` than the rounded one, and with an equally near one the
rounded one is even. -/
theorem roundMagnitude_nearest {num den : Nat} (hd : 0 < den) (z : Nat) :
    |(num : Int) - unitsOf (roundMagnitude num den) * den| ≤ |(num : Int) - unitsOf z * den| ∧
    (|(num : Int) - unitsOf (roundMagnitude num den) * den| = |(num : Int) - unitsOf z * den| →
      z = roundMagnitude num den ∨ roundMagnitude num den % 2 = 0) := by
  rw [unitsOf_roundMagnitude hd]
  have hD : 0 < den * 2 ^ roundScale num den := Nat.mul_pos hd (Nat.two_pow_pos _)
  obtain ⟨⟨s1, s2⟩, s3⟩ := roundHalfEven_spec num _ hD
  obtain ⟨-, hfull⟩ := roundScale_spec (num := num) hd
  obtain ⟨hR1, hR2⟩ := roundSignificand_spec (num := num) hd
  have heven : roundSignificand num den % 2 = 0 → roundMagnitude num den % 2 = 0 := by
    unfold roundMagnitude; omega
  have hz : z = roundMagnitude num den ↔
      unitsOf z = roundSignificand num den * 2 ^ roundScale num den := by
    rw [← unitsOf_roundMagnitude hd]; exact unitsOf_strictMono.injective.eq_iff.symm
  rw [hz]
  change (2 * num ≤ (2 * roundSignificand num den + 1) * _) at s1
  change 2 * roundSignificand num den * _ ≤ _ at s2
  change (_ = (2 * roundSignificand num den + 1) * _ ∨ 2 * roundSignificand num den * _ = _) → roundSignificand num den % 2 = 0 at s3
  generalize roundSignificand num den = R at *
  generalize roundScale num den = k at *
  clear hz
  -- multiples of the unit
  have multiple : ∀ n : Nat,
      |(num : Int) - (R * 2 ^ k : Nat) * den| ≤ |(num : Int) - (n * 2 ^ k : Nat) * den| ∧
      (|(num : Int) - (R * 2 ^ k : Nat) * den| = |(num : Int) - (n * 2 ^ k : Nat) * den| →
        n = R ∨ R % 2 = 0) := by
    intro n
    have e : ∀ x : Nat, (((x * 2 ^ k : Nat) : Int)) * den = (x : Int) * ((den * 2 ^ k : Nat) : Int) := by
      intro x; push_cast; ring
    rw [e, e]
    generalize den * 2 ^ k = D at *
    have e1 : (2 * R + 1) * D = 2 * (R * D) + D := by ring
    have e2 : 2 * R * D = 2 * (R * D) := by ring
    rw [e1] at s1 s3
    rw [e2] at s2 s3
    have c1 : (R : Int) * D = ((R * D : Nat) : Int) := by push_cast; ring
    have c2 : (n : Int) * D = ((n * D : Nat) : Int) := by push_cast; ring
    rw [c1, c2]
    simp only [Int.abs_eq_natAbs]
    clear e1 e2 c1 c2 hfull
    rcases Nat.lt_trichotomy n R with h | rfl | h
    · have hh : (n + 1) * D ≤ R * D := Nat.mul_le_mul_right D h
      rw [Nat.add_mul, Nat.one_mul] at hh
      generalize R * D = x at *
      generalize n * D = y at *
      exact ⟨by omega, fun h => .inr (s3 (by omega))⟩
    · exact ⟨le_refl _, fun _ => .inl rfl⟩
    · have hh : (R + 1) * D ≤ n * D := Nat.mul_le_mul_right D h
      rw [Nat.add_mul, Nat.one_mul] at hh
      generalize R * D = x at *
      generalize n * D = y at *
      exact ⟨by omega, fun h => .inr (s3 (by omega))⟩
  obtain ⟨k', R', rfl, hR', hk'⟩ := magnitude_form z
  rw [unitsOf_scaled hR'.le hk']
  by_cases hkk : k ≤ k'
  · have e : R' * 2 ^ k' = (R' * 2 ^ (k' - k)) * 2 ^ k := by
      rw [Nat.mul_assoc, ← pow_add]; congr 2; omega
    rw [e]
    obtain ⟨m1, m2⟩ := multiple (R' * 2 ^ (k' - k))
    exact ⟨m1, fun h => (m2 h).imp (fun h => by rw [h]) heven⟩
  · have hk0 : k ≠ 0 := by omega
    obtain hfull := hfull.resolve_left hk0
    obtain ⟨m1, -⟩ := multiple (2 ^ 52)
    have hlt : R' * 2 ^ k' < 2 ^ 52 * 2 ^ k := by
      calc R' * 2 ^ k' < 2 ^ 53 * 2 ^ k' := Nat.mul_lt_mul_of_pos_right hR' (Nat.two_pow_pos _)
        _ = 2 ^ 52 * 2 ^ (k' + 1) := by rw [pow_succ 2 k']; ring
        _ ≤ 2 ^ 52 * 2 ^ k := Nat.mul_le_mul_left _ (Nat.pow_le_pow_right (by norm_num) (by omega))
    have hlt' := Nat.mul_lt_mul_of_pos_right hlt hd
    have hfull' : 2 ^ 52 * 2 ^ k * den ≤ num := by
      calc 2 ^ 52 * 2 ^ k * den = 2 ^ 52 * (den * 2 ^ k) := by ring
        _ ≤ num := hfull
    have c1 : ((2 ^ 52 * 2 ^ k : Nat) : Int) * den = ((2 ^ 52 * 2 ^ k * den : Nat) : Int) := by
      push_cast; ring
    have c2 : ((R' * 2 ^ k' : Nat) : Int) * den = ((R' * 2 ^ k' * den : Nat) : Int) := by
      push_cast; ring
    rw [c1] at m1
    rw [c2]
    generalize 2 ^ 52 * 2 ^ k * den = x at *
    generalize R' * 2 ^ k' * den = y at *
    generalize ((R * 2 ^ k : Nat) : Int) * den = w at *
    simp only [Int.abs_eq_natAbs] at m1 ⊢
    exact ⟨by omega, fun h => by omega⟩

end Rounding

/-! ### Patterns -/

theorem f64Units_eq (x : F64) :
    f64Units x = if f64Sign x then -(unitsOf (f64Magnitude x) : Int)
      else (unitsOf (f64Magnitude x) : Int) := by
  simp only [f64Units, significand_scale]

@[simp] theorem f64Sign_pack (b : Bool) (m : Nat) : f64Sign (f64Pack b m) = b := by
  unfold f64Sign f64Pack
  rw [BitVec.getLsbD_append]
  cases b <;> simp

theorem f64Magnitude_pack (b : Bool) {m : Nat} (h : m < 2 ^ 63) :
    f64Magnitude (f64Pack b m) = m := by
  have : (f64Pack b m).extractLsb' 0 63 = BitVec.ofNat 63 m := BitVec.extractLsb'_append_eq_right
  rw [f64Magnitude, this, BitVec.toNat_ofNat, Nat.mod_eq_of_lt h]

/-- A pattern is its sign and its magnitude. -/
theorem f64_toNat_eq (x : F64) :
    x.toNat = (if f64Sign x then 2 ^ 63 else 0) + f64Magnitude x := by
  have h := x.isLt
  have hm : f64Magnitude x = x.toNat % 2 ^ 63 := by simp [f64Magnitude]
  have hs : f64Sign x = decide (2 ^ 63 ≤ x.toNat) := by
    simp only [f64Sign, BitVec.getLsbD, Nat.testBit_eq_decide_div_mod_eq]
    congr 1
    rw [eq_iff_iff]; omega
  rw [hm, hs]
  by_cases h63 : 2 ^ 63 ≤ x.toNat
  · simp only [h63, decide_true, if_true]; omega
  · simp only [h63, decide_false, Bool.false_eq_true, if_false]; omega

/-- The product's magnitude is the exact product, rounded. -/
theorem fmul64_magnitude (x y : F64) :
    f64Magnitude (fmul64 x y)
      = nearestMagnitude (unitsOf (f64Magnitude x) * unitsOf (f64Magnitude y)) (2 ^ 1074) := by
  have e : (f64Significand x * f64Significand y) <<< (f64Scale x + f64Scale y)
      = unitsOf (f64Magnitude x) * unitsOf (f64Magnitude y) := by
    rw [← significand_scale, ← significand_scale, Nat.shiftLeft_eq, pow_add]; ring
  unfold fmul64
  rw [f64Magnitude_pack, e]
  rw [nearestMagnitude_eq _ _ (Nat.two_pow_pos _)]
  have : infinityMagnitude < 2 ^ 63 := by decide
  exact lt_of_le_of_lt (min_le_right _ _) this

@[simp] theorem fmul64_sign (x y : F64) : f64Sign (fmul64 x y) = (f64Sign x != f64Sign y) :=
  f64Sign_pack _ _

/-- The operands QUANTIZE accepts: magnitudes up to that of 1.0, and of the negative ones −0.0. -/
theorem legalUnit_iff (v : F64) :
    LegalUnit v ↔ f64Magnitude v ≤ 0x3FF0000000000000 ∧
      (f64Sign v = true → f64Magnitude v = 0) := by
  have z0 : isNaN f64Zero = false := by decide +kernel
  have z1 : isNaN f64One = false := by decide +kernel
  have k0 : f64Key f64Zero = 0 := by decide +kernel
  have k1 : f64Key f64One = 0x3FF0000000000000 := by decide +kernel
  unfold LegalUnit f64Gt f64Lt
  rw [z0, z1, k0, k1]
  simp only [Bool.not_false, Bool.true_and, Bool.and_true, Bool.and_eq_false_iff,
    Bool.not_eq_false', decide_eq_false_iff_not]
  unfold isNaN f64Key infinityMagnitude
  cases f64Sign v <;> simp <;> omega

end Sys2Proof.Machine
end

