-- ==== Sys2Proof/Laws/Decode.lean ====
section
/-!
SUPPORT. Ports and their images: an operand its port can carry is read back unchanged.
-/

namespace Sys2Proof

theorem fitsPort_iff (x : Int) : fitsPort x = true ↔ -2147483648 ≤ x ∧ x ≤ 2147483647 := by
  simp [fitsPort]

/-- What stands on a 32-bit port is in the port's range. -/
theorem fitsPort_toInt (b : BitVec 32) : fitsPort b.toInt = true := by
  rw [fitsPort_iff]
  have h1 := BitVec.two_mul_toInt_lt (x := b)
  have h2 := BitVec.le_two_mul_toInt (x := b)
  omega

/-- A fitting operand survives its port. -/
theorem toInt_portOf {x : Int} (h : fitsPort x = true) : (portOf x).toInt = x := by
  rw [fitsPort_iff] at h
  have e : (portOf x).toInt = x.bmod 4294967296 := BitVec.toInt_ofInt x
  rw [e, Int.bmod_eq_of_le] <;> omega

/-- When all five operands fit their ports, ENCODE decodes. -/
theorem decodeEncode_ok {r : Request} (h : r.wellFormed = true) :
    decodeEncode r = .ok (.encode r.pfx r.control r.address r.data r.feature) := by
  simp only [Request.wellFormed, Bool.and_eq_true] at h
  simp [decodeEncode, h]

section Layout
variable (sel : BitVec 16) (v : BitVec 64) (e d c b a : BitVec 32) (op : BitVec 2)

/-- A field that lies above the lowest part of a concatenation. -/
theorem extract_above {m k : Nat} (hi : BitVec m) (lo : BitVec k) (start len : Nat) :
    (hi ++ lo).extractLsb' (start + k) len = hi.extractLsb' start len := by
  rw [BitVec.extractLsb'_append_eq_of_le (by omega), Nat.add_sub_cancel]

theorem extract_self {m : Nat} (x : BitVec m) : x.extractLsb' 0 m = x :=
  BitVec.extractLsb'_eq_self

theorem layout_op :
    (sel ++ v ++ e ++ d ++ c ++ b ++ a ++ op : BitVec 242).extractLsb' 0 2 = op :=
  BitVec.extractLsb'_append_eq_right

theorem layout_pfx :
    (sel ++ v ++ e ++ d ++ c ++ b ++ a ++ op : BitVec 242).extractLsb' 2 32 = a := by
  rw [extract_above _ op 0, BitVec.extractLsb'_append_eq_right]

theorem layout_control :
    (sel ++ v ++ e ++ d ++ c ++ b ++ a ++ op : BitVec 242).extractLsb' 34 32 = b := by
  rw [extract_above _ op 32, extract_above _ a 0, BitVec.extractLsb'_append_eq_right]

theorem layout_address :
    (sel ++ v ++ e ++ d ++ c ++ b ++ a ++ op : BitVec 242).extractLsb' 66 32 = c := by
  rw [extract_above _ op 64, extract_above _ a 32, extract_above _ b 0,
    BitVec.extractLsb'_append_eq_right]

theorem layout_data :
    (sel ++ v ++ e ++ d ++ c ++ b ++ a ++ op : BitVec 242).extractLsb' 98 32 = d := by
  rw [extract_above _ op 96, extract_above _ a 64, extract_above _ b 32, extract_above _ c 0,
    BitVec.extractLsb'_append_eq_right]

theorem layout_feature :
    (sel ++ v ++ e ++ d ++ c ++ b ++ a ++ op : BitVec 242).extractLsb' 130 32 = e := by
  rw [extract_above _ op 128, extract_above _ a 96, extract_above _ b 64, extract_above _ c 32,
    extract_above _ d 0, BitVec.extractLsb'_append_eq_right]

theorem layout_v :
    (sel ++ v ++ e ++ d ++ c ++ b ++ a ++ op : BitVec 242).extractLsb' 162 64 = v := by
  rw [extract_above _ op 160, extract_above _ a 128, extract_above _ b 96, extract_above _ c 64,
    extract_above _ d 32, extract_above _ e 0, BitVec.extractLsb'_append_eq_right]

theorem layout_sel :
    (sel ++ v ++ e ++ d ++ c ++ b ++ a ++ op : BitVec 242).extractLsb' 226 16 = sel := by
  rw [extract_above _ op 224, extract_above _ a 192, extract_above _ b 160, extract_above _ c 128,
    extract_above _ d 96, extract_above _ e 64, extract_above _ v 0, extract_self]

end Layout

/-- Ports laid out and read back. -/
theorem ofBits_toBits {r : Request} (h : r.wellFormed = true) : Request.ofBits r.toBits = r := by
  simp only [Request.wellFormed, Bool.and_eq_true] at h
  obtain ⟨⟨⟨⟨h1, h2⟩, h3⟩, h4⟩, h5⟩ := h
  unfold Request.ofBits Request.toBits
  rw [layout_op, layout_pfx, layout_control, layout_address, layout_data, layout_feature, layout_v,
    layout_sel, toInt_portOf h1, toInt_portOf h2, toInt_portOf h3, toInt_portOf h4, toInt_portOf h5]

/-- The ports of any bit string are well formed. -/
theorem ofBits_wellFormed (b : BitVec Config.requestBits) :
    (Request.ofBits b).wellFormed = true := by
  simp only [Request.wellFormed, Request.ofBits, fitsPort_toInt, Bool.and_self]

end Sys2Proof
end

