-- ==== Sys2Proof/Laws/Ops.lean ====
section
/-!
SUPPORT. What each shared operation can do, said once: the Transport write, a host composition, the
four core operations as requests and inside a composition, and a step.
-/

namespace Sys2Proof.Machine

section Composition
variable {α β : Type}

@[simp] theorem thenDo_ok (s : State) (a : α) (k : α → State → HostResult β) :
    thenDo (s, .ok a) k = k a s := rfl

@[simp] theorem thenDo_error (s : State) (e : HostError) (k : α → State → HostResult β) :
    thenDo (s, .error e) k = (s, .error e) := rfl

@[simp] theorem hostValue_ok (a : α) (s : State) : hostValue (.ok a) s = (s, .ok a) := rfl

@[simp] theorem hostValue_error (e : CoreError) (s : State) :
    hostValue (.error e : Except CoreError α) s = (s, .error (.core e)) := rfl

end Composition

section Transport
variable (f : Frame) (s : State)

/-- The Transport's answer to the next write is the first of the coming ones. -/
theorem transportAnswer_eq_comingAnswer : transportAnswer s = comingAnswer 0 s := by
  cases h : s.transportPlan <;> simp [transportAnswer, comingAnswer, h]

/-- An accepted write is logged and uses up one answer. -/
theorem transportWrite_accepts (h : transportAnswer s = .accepts) :
    transportWrite f s = ({ s with
      transportPlan := s.transportPlan.tail
      writeAttempts := s.writeAttempts + 1
      transportLog := s.transportLog ++ [f] }, .ok ()) := by
  simp [transportWrite, h]

/-- A failing write only uses up one answer. -/
theorem transportWrite_ioError (h : transportAnswer s = .ioError) :
    transportWrite f s = ({ s with
      transportPlan := s.transportPlan.tail
      writeAttempts := s.writeAttempts + 1 }, .error .ioError) := by
  simp [transportWrite, h]

/-- There is no third answer. -/
theorem transportAnswer_cases :
    transportAnswer s = .accepts ∨ transportAnswer s = .ioError := by
  cases transportAnswer s <;> simp

/-- The next write does not depend on the record of exchanges. -/
@[simp] theorem transportAnswer_respond (i : Instr) (r : Response) :
    transportAnswer (respond i r s) = transportAnswer s := rfl

@[simp] theorem transportAnswer_advance : transportAnswer (advance s) = transportAnswer s := rfl

/-- A host call that ends in an accepted write returns. -/
theorem finish_transportWrite_accepts (h : transportAnswer s = .accepts) :
    finish (transportWrite f s) = afterCall s [] [f] 1 .returned := by
  simp [transportWrite_accepts f s h, finish, afterCall]

/-- A host call that ends in a failing write passes the IOError on. -/
theorem finish_transportWrite_ioError (h : transportAnswer s = .ioError) :
    finish (transportWrite f s) = afterCall s [] [] 1 (.raised .ioError) := by
  simp [transportWrite_ioError f s h, finish, afterCall]

end Transport

/-- After one answered request, a call's end adds its exchanges behind that one. -/
@[simp] theorem afterCall_respond (i : Instr) (r : Response) (s : State) (requests : List Exchange)
    (frames : List Frame) (attempts : Nat) (report : Report) :
    afterCall (respond i r s) requests frames attempts report
      = afterCall s (⟨i, r⟩ :: requests) frames attempts report := by
  simp [afterCall, respond]

section CoreOperations
variable (pfx control address data feature : Int) (v : F64) (sel : PresenceVector) (s : State)

theorem exec_encode_ok {w : Word} (h : encodeFields pfx control address data feature = .ok w) :
    exec (.encode pfx control address data feature) s
      = .next (respond (.encode pfx control address data feature) (.encoded w (serialize w)) s) := by
  simp [exec, execEncode, h]

theorem exec_encode_error {e : CoreError}
    (h : encodeFields pfx control address data feature = .error e) :
    exec (.encode pfx control address data feature) s
      = .next (respond (.encode pfx control address data feature) (.error e) s) := by
  simp [exec, execEncode, h, raiseError]

theorem exec_quantize_ok {c : DacCode} (h : quantizeValue v = .ok c) :
    exec (.quantize v) s = .next (respond (.quantize v) (.code c) s) := by
  simp [exec, execQuantize, h]

theorem exec_quantize_error {e : CoreError} (h : quantizeValue v = .error e) :
    exec (.quantize v) s = .next (respond (.quantize v) (.error e) s) := by
  simp [exec, execQuantize, h, raiseError]

theorem exec_mask_ok {m : ChannelMask} (h : maskValue sel = .ok m) :
    exec (.mask sel) s = .next (respond (.mask sel) (.mask m) s) := by
  simp [exec, execMask, h]

theorem exec_mask_error {e : CoreError} (h : maskValue sel = .error e) :
    exec (.mask sel) s = .next (respond (.mask sel) (.error e) s) := by
  simp [exec, execMask, h, raiseError]

theorem exec_reserved :
    exec .reserved s = .next (respond .reserved (.error .illegalOperation) s) := rfl

/-- Inside a composition ENCODE is the same request. -/
theorem askEncode_ok {w : Word} (h : encodeFields pfx control address data feature = .ok w) :
    askEncode pfx control address data feature s
      = (respond (.encode pfx control address data feature) (.encoded w (serialize w)) s, .ok w) := by
  simp [askEncode, h]

theorem askQuantize_ok {c : DacCode} (h : quantizeValue v = .ok c) :
    askQuantize v s = (respond (.quantize v) (.code c) s, .ok c) := by
  simp [askQuantize, h]

theorem askQuantize_error {e : CoreError} (h : quantizeValue v = .error e) :
    askQuantize v s = (respond (.quantize v) (.error e) s, .error (.core e)) := by
  simp [askQuantize, h, raiseError]

theorem askMask_ok {m : ChannelMask} (h : maskValue sel = .ok m) :
    askMask sel s = (respond (.mask sel) (.mask m) s, .ok m) := by
  simp [askMask, h]

/-- Every request a composition makes is what `exec` answers to it. -/
theorem exec_eq_askEncode :
    exec (.encode pfx control address data feature) s
      = .next (askEncode pfx control address data feature s).1 := by
  cases h : encodeFields pfx control address data feature <;>
    simp [exec, execEncode, askEncode, h]

theorem exec_eq_askQuantize : exec (.quantize v) s = .next (askQuantize v s).1 := by
  cases h : quantizeValue v <;> simp [exec, execQuantize, askQuantize, h]

theorem exec_eq_askMask : exec (.mask sel) s = .next (askMask sel s).1 := by
  cases h : maskValue sel <;> simp [exec, execMask, askMask, h]

end CoreOperations

/-- Answering is what `Answers` says. -/
theorem answers_iff (i : Instr) (s : State) (r : Response) :
    Answers i s r ↔ exec i s = .next (respond i r s) := Iff.rfl

/-- What a step can be: the end of the list, a refused concurrent call, or a call that runs at the
next position. -/
theorem step_cases (s : State) :
    (nextHostStep s = none ∧ step s = .fault .noHostStep) ∨
    (∃ c d, nextHostStep s = some (.concurrent c d) ∧ step s = .refused .concurrentInvocation) ∨
    (∃ c, nextHostStep s = some (.call c) ∧ step s = runCall c (advance s)) := by
  unfold step
  rcases h : nextHostStep s with _ | (c | ⟨c, d⟩)
  · simp
  · simp [runHostStep]
  · simp [runHostStep]

end Sys2Proof.Machine
end

