-- ==== Sys2Proof/Laws/Operands.lean ====
section
/-!
SUPPORT. The width check, the Registry lookups, and presence vectors.
-/

namespace Sys2Proof.Machine

theorem fits_iff (x : Int) (w : Nat) : fits x w = true ↔ 0 ≤ x ∧ x ≤ 2 ^ w - 1 := by
  simp [fits]

/-- The five checks are the legal ranges of 10_state R22. -/
theorem allFit_iff (p c a d f : Int) : allFit p c a d f = true ↔ LegalFields p c a d f := by
  simp only [allFit, LegalFields, Bool.and_eq_true, fits_iff]
  norm_num
  tauto

theorem encodeFields_of_legal {p c a d f : Int} (h : LegalFields p c a d f) :
    encodeFields p c a d f = .ok (packWord p c a d f) := by
  simp [encodeFields, (allFit_iff p c a d f).2 h]

theorem encodeFields_of_not_legal {p c a d f : Int} (h : ¬ LegalFields p c a d f) :
    encodeFields p c a d f = .error .rangeError := by
  have h' : allFit p c a d f = false :=
    Bool.eq_false_iff.2 fun hf => h ((allFit_iff p c a d f).1 hf)
  simp [encodeFields, h']

/-- A lookup can only fail one way. -/
theorem lookupIn_error {table : List (String × BitVec 4)} {symbol : String} {e : CoreError}
    (h : lookupIn table symbol = .error e) : e = .invalidArgument := by
  unfold lookupIn at h
  split at h <;> simp_all

theorem lookupChannel_error {label : String} {e : CoreError}
    (h : lookupChannel label = .error e) : e = .invalidArgument :=
  lookupIn_error h

theorem lookupIn_nil (symbol : String) : lookupIn [] symbol = .error .invalidArgument := rfl

theorem lookupIn_cons (name : String) (c : BitVec 4) (table : List (String × BitVec 4))
    (symbol : String) :
    lookupIn ((name, c) :: table) symbol
      = if symbol = name then .ok c else lookupIn table symbol := by
  by_cases h : symbol = name
  · simp [lookupIn, h]
  · have h' : (symbol == name) = false := by simpa using h
    simp [lookupIn, List.lookup, h, h']

/-- The channel lookup as a chain of comparisons. -/
theorem lookupChannel_eq (label : String) :
    lookupChannel label =
      if label = "A" then .ok 0 else if label = "B" then .ok 1 else if label = "C" then .ok 2
      else if label = "D" then .ok 3 else if label = "E" then .ok 4 else if label = "F" then .ok 5
      else if label = "G" then .ok 6 else if label = "H" then .ok 7
      else if label = "ALL" then .ok 15 else .error .invalidArgument := by
  simp only [lookupChannel, channelTable, lookupIn_cons, lookupIn_nil]

/-- The command lookup as a chain of comparisons. -/
theorem lookupCommand_eq (name : String) :
    lookupCommand name =
      if name = "WRITE" then .ok 0 else if name = "UPDATE" then .ok 1
      else if name = "WRITE_AND_UPDATE_ALL" then .ok 2
      else if name = "WRITE_AND_UPDATE" then .ok 3 else if name = "POWER_DOWN" then .ok 4
      else if name = "CLEAR" then .ok 5 else if name = "RESET" then .ok 7
      else .error .invalidArgument := by
  simp only [lookupCommand, commandTable, lookupIn_cons, lookupIn_nil]

/-- A known label's code is 0 to 7 or 15. -/
theorem lookupChannel_code {label : String} {c : BitVec 4} (h : lookupChannel label = .ok c) :
    c.toNat ≤ 7 ∨ c = 15 := by
  rw [lookupChannel_eq] at h
  repeat' split at h
  all_goals first | (cases h; decide) | cases h

theorem getLsbD_setPresence (sel : PresenceVector) (c : BitVec 4) (i : Nat) :
    (setPresence sel c).getLsbD i = (sel.getLsbD i || decide (i = c.toNat)) := by
  have hc := c.isLt
  simp only [setPresence, BitVec.getLsbD_or, BitVec.getLsbD_shiftLeft, BitVec.getLsbD_one]
  by_cases h : i = c.toNat
  · subst h
    have : c.toNat < 16 := by omega
    simp [this]
  · by_cases hlt : i < c.toNat
    · simp [h, hlt]
    · have : ¬ (i - c.toNat = 0) := by omega
      simp [h, this]

/-- All labels known: the vector holds what it began with and the labels' codes. -/
theorem presenceFrom_ok (labels : List String) :
    ∀ sel, (∀ l ∈ labels, ∃ c, lookupChannel l = .ok c) → ∃ sel',
      presenceFrom sel labels = .ok sel' ∧
      ∀ i, sel'.getLsbD i = true ↔
        sel.getLsbD i = true ∨ ∃ l ∈ labels, ∃ c, lookupChannel l = .ok c ∧ i = c.toNat := by
  induction labels with
  | nil => intro sel _; exact ⟨sel, rfl, by simp⟩
  | cons l rest ih =>
    intro sel h
    obtain ⟨c, hc⟩ := h l (by simp)
    obtain ⟨sel', hsel', hbits⟩ := ih (setPresence sel c) fun x hx => h x (by simp [hx])
    refine ⟨sel', by simp [presenceFrom, hc, hsel'], fun i => ?_⟩
    rw [hbits i, getLsbD_setPresence]
    simp [hc, or_assoc]

/-- One label unknown: InvalidArgument. -/
theorem presenceFrom_error (labels : List String) :
    ∀ sel, (∃ l ∈ labels, ∀ c, lookupChannel l ≠ .ok c) →
      presenceFrom sel labels = .error .invalidArgument := by
  induction labels with
  | nil => simp
  | cons l rest ih =>
    intro sel ⟨x, hx, hno⟩
    rcases hl : lookupChannel l with e | c
    · simp [presenceFrom, hl, lookupChannel_error hl]
    · have hxr : x ∈ rest := by
        rcases List.mem_cons.1 hx with rfl | h
        · exact absurd hl (hno c)
        · exact h
      simpa [presenceFrom, hl] using ih _ ⟨x, hxr, hno⟩

/-- A decimal literal is one ratio, whatever the sign of its exponent. -/
theorem literalBits_decimal (negative : Bool) (coefficient : Nat) (exponent : Int) :
    literalBits (.decimal negative coefficient exponent)
      = f64OfRatio negative (coefficient * 10 ^ exponent.toNat) (10 ^ (-exponent).toNat) := by
  cases exponent <;> simp [literalBits]

end Sys2Proof.Machine
end

