-- ==== Sys2Proof/Laws/PerInstr.lean ====
section
/-!
SUPPORT. Statements made per instruction. DecodeOfRequest: the request that presents a well-formed
instruction is well formed and decodes to it.
-/

namespace Sys2Proof.Laws.DecodeOfRequest

/-- A well-formed instruction's request decodes to the instruction. -/
def Statement (i : Instr) : Prop :=
  i.wellFormed = true → i.request.wellFormed = true ∧ Sys2Proof.decode i.request = .ok i

theorem encode (pfx control address data feature : Int) :
    Statement (.encode pfx control address data feature) := by
  intro h
  have hr : (Instr.encode pfx control address data feature).request.wellFormed = true := h
  exact ⟨hr, by simpa [Sys2Proof.decode, Instr.request] using decodeEncode_ok hr⟩

theorem quantize (v : F64) : Statement (.quantize v) := by
  intro _
  exact ⟨rfl, rfl⟩

theorem mask (sel : PresenceVector) : Statement (.mask sel) := by
  intro _
  exact ⟨rfl, rfl⟩

theorem reserved : Statement .reserved := by
  intro _
  exact ⟨rfl, rfl⟩

end Sys2Proof.Laws.DecodeOfRequest
end

