-- ==== Sys2Proof/Tests/Slice0.lean ====
section
/-!
SUPPORT. Tests. Expected results are the spec's: 95_test_vectors by row (E3, Q10, M13, …), or the
encoding rules written out by hand. The second half shows, for every statement with hypotheses, a
concrete state and operands that meet them.
-/

namespace Sys2Proof.Machine

/-- The next state of an outcome, to compare by `decide`. -/
def nextOf (o : Host.Outcome State Fault Refusal) : Option State :=
  match o with
  | .next s => some s
  | .fault _ => none
  | .refused _ => none

/-- The refusal of an outcome. -/
def refusalOf (o : Host.Outcome State Fault Refusal) : Option Refusal :=
  match o with
  | .next _ => none
  | .fault _ => none
  | .refused r => some r

/-- The response `exec` gives in the reset state. -/
def responseTo (i : Instr) : Option Response :=
  (nextOf (exec i State.reset)).bind currentResponse

/-- An Initialized Facade over a Transport whose coming answers are `plan`. -/
def ready (plan : List TransportAnswer) : State :=
  { State.reset with facade := .initialized, transportPlan := plan }

/-- A machine whose host has the one step `h` to run. -/
def oneStep (h : HostStep) : State :=
  { State.reset with program := [h], transportPlan := [.accepts] }

/-- What a call of a Facade left in `transport_log`, and its report. -/
def sentBy (c : HostCall) (s : State) : Option (List Frame × Option Report) :=
  (nextOf (runCall c s)).map fun t => (t.transportLog, t.report)

/-! ### Well-formedness: an ill-formed term for each check -/

theorem test_wellFormed_boundary :
    (Instr.encode (-2147483648) 2147483647 0 0 0).wellFormed = true := by decide
theorem test_illFormed_pfx : (Instr.encode 2147483648 0 0 0 0).wellFormed = false := by decide
theorem test_illFormed_control : (Instr.encode 0 2147483648 0 0 0).wellFormed = false := by decide
theorem test_illFormed_address : (Instr.encode 0 0 (-2147483649) 0 0).wellFormed = false := by decide
theorem test_illFormed_data : (Instr.encode 0 0 0 2147483648 0).wellFormed = false := by decide
theorem test_illFormed_feature : (Instr.encode 0 0 0 0 (-2147483649)).wellFormed = false := by decide
theorem test_illFormed_request_pfx :
    (Request.mk 3 2147483648 0 0 0 0 0 0).wellFormed = false := by decide
theorem test_illFormed_request_control :
    (Request.mk 3 0 2147483648 0 0 0 0 0).wellFormed = false := by decide
theorem test_illFormed_request_address :
    (Request.mk 3 0 0 2147483648 0 0 0 0).wellFormed = false := by decide
theorem test_illFormed_request_data :
    (Request.mk 3 0 0 0 2147483648 0 0 0).wellFormed = false := by decide
theorem test_illFormed_request_feature :
    (Request.mk 3 0 0 0 0 2147483648 0 0).wellFormed = false := by decide
theorem test_wellFormed_others :
    (Instr.quantize 0xFFFFFFFFFFFFFFFF#64).wellFormed = true ∧
    (Instr.mask 0xFFFF#16).wellFormed = true ∧ Instr.reserved.wellFormed = true := by decide

/-! ### Decoding: words written out from 30_encoding R48, R49 and the ports of 10_state R22 -/

/-- ENCODE 1, 2, 3, 0x4567, 8 (P1 of the vectors' request fields: E3). -/
theorem test_decode_encode :
    decodeTableWord 242 ((0b00 : Nat) + 1 * 2 ^ 2 + 2 * 2 ^ 34 + 3 * 2 ^ 66 + 0x4567 * 2 ^ 98
      + 8 * 2 ^ 130) = some (.encode 1 2 3 0x4567 8) := by decide +kernel
/-- data = −1 on its port: two's complement, 32 ones (E28). -/
theorem test_decode_encode_negative :
    decodeTableWord 242 (0xFFFFFFFF * 2 ^ 98) = some (.encode 0 0 0 (-1) 0) := by decide +kernel
/-- QUANTIZE 0.5. -/
theorem test_decode_quantize :
    decodeTableWord 242 (0b01 + 0x3FE0000000000000 * 2 ^ 162)
      = some (.quantize 0x3FE0000000000000#64) := by decide +kernel
/-- MASKV 0x8002. -/
theorem test_decode_mask :
    decodeTableWord 242 (0b10 + 0x8002 * 2 ^ 226) = some (.mask 0x8002#16) := by decide +kernel
/-- The reserved select, with prefix = 16 on its port (X2). -/
theorem test_decode_reserved :
    decodeTableWord 242 (0b11 + 16 * 2 ^ 2) = some .reserved := by decide +kernel
/-- The rows of the opcode table, 8 bits wide. -/
theorem test_decode_table_rows :
    decodeTableWord 8 0 = some (.encode 0 0 0 0 0) ∧ decodeTableWord 8 1 = some (.quantize 0#64) ∧
    decodeTableWord 8 2 = some (.mask 0#16) ∧ decodeTableWord 8 3 = some .reserved := by
  decide +kernel
/-- Refused by name: the ENCODE operand beyond its port, by the first port that breaks. -/
theorem test_decode_beyond_port :
    decode ⟨0b00#2, 0, 2147483648, 0, -2147483649, 0, 0#64, 0#16⟩
      = .error (.operandBeyondPort .control) := by decide

/-! ### ENCODE -/

/-- E3. -/
theorem test_encode_places :
    responseTo (.encode 1 2 3 0x4567 8)
      = some (.encoded 0x12345678#32 ⟨0x12#8, 0x34#8, 0x56#8, 0x78#8⟩) := by decide
/-- E28: a negative data value does not wrap to 0xFFFF. -/
theorem test_encode_negative :
    responseTo (.encode 0 0 0 (-1) 0) = some (.error .rangeError) := by decide
/-- E21, both ways round. -/
theorem test_encode_round_trip :
    wordFields 0xDEADBEEF#32 = (0xD#4, 0xE#4, 0xA#4, 0xDBEE#16, 0xF#4) ∧
    encodeFields 0xD 0xE 0xA 0xDBEE 0xF = .ok 0xDEADBEEF#32 := by decide

/-! ### QUANTIZE -/

/-- Q10: the rounded product, where an exact one would give 21844. -/
theorem test_quantize_third :
    responseTo (.quantize 0x3FD5555555555555#64) = some (.code 21845#16) := by decide +kernel
/-- Q16: the largest value below 1 does not reach 65535. -/
theorem test_quantize_below_one :
    responseTo (.quantize 0x3FEFFFFFFFFFFFFF#64) = some (.code 65534#16) := by decide +kernel
/-- Q11 and Q8: truncated, not rounded. -/
theorem test_quantize_truncates :
    quantizeValue 0x3FE0000000000000#64 = .ok 0x7FFF#16 ∧
    quantizeValue 0x3FB999999999999A#64 = .ok 0x1999#16 := by decide +kernel
/-- Q18, Q21, Q23, Q26: the nearest values outside, an infinity, a NaN with its sign set. -/
theorem test_quantize_rejects :
    quantizeValue 0x3FF0000000000001#64 = .error .rangeError ∧
    quantizeValue 0x8000000000000001#64 = .error .rangeError ∧
    quantizeValue 0x7FF0000000000000#64 = .error .rangeError ∧
    quantizeValue 0xFFF8000000000000#64 = .error .rangeError := by decide +kernel
/-- The literals of Q4, Q8, Q22 and Q20: decimal text and the pattern beside it. -/
theorem test_literal :
    literalBits (.decimal false 1 (-5)) = 0x3EE4F8B588E368F1#64 ∧
    literalBits (.decimal false 1 (-1)) = 0x3FB999999999999A#64 ∧
    literalBits (.decimal true 5 (-1)) = 0xBFE0000000000000#64 ∧
    literalBits (.decimal false 2 0) = 0x4000000000000000#64 := by decide +kernel

/-! ### MASK and the reserved select -/

/-- M10. -/
theorem test_mask_union : responseTo (.mask 0x8002#16) = some (.mask 0xFF#8) := by decide
/-- M13: InvalidArgument even with ALL present. -/
theorem test_mask_unknown_with_all :
    responseTo (.mask 0x8100#16) = some (.error .invalidArgument) := by decide
/-- M5: order and duplicates. -/
theorem test_mask_labels :
    presenceOf ["C", "A"] = .ok 0x0005#16 ∧ presenceOf ["A", "A", "C"] = .ok 0x0005#16 := by decide
/-- X2: the reserved select does not examine the operands. -/
theorem test_reserved :
    (nextOf (runRequest ⟨0b11#2, 16, 0, 0, 0, 0, 0#64, 0#16⟩ State.reset)).bind currentResponse
      = some (.error .illegalOperation) := by decide
/-- X3: an unselected operand is ignored. -/
theorem test_unselected_operand :
    (nextOf (runRequest ⟨0b10#2, 16, 0, 0, 0, 0, 0#64, 0x0001#16⟩ State.reset)).bind currentResponse
      = some (.mask 0x01#8) := by decide

/-! ### The Facade -/

/-- F6, the source's own example. -/
theorem test_write_to_register :
    sentBy (.facade (.writeToRegister "A" 0x3FE0000000000000#64)) (ready [.accepts])
      = some ([⟨0x00#8, 0x07#8, 0xFF#8, 0xF0#8⟩], some .returned) := by decide +kernel
/-- F10. -/
theorem test_write_and_update :
    sentBy (.facade (.writeAndUpdate "H" 0x3FF0000000000000#64)) (ready [.accepts])
      = some ([⟨0x03#8, 0x7F#8, 0xFF#8, 0xF0#8⟩], some .returned) := by decide +kernel
/-- F13. -/
theorem test_write_and_update_all :
    sentBy (.facade (.writeAndUpdateAll "A" 0x3FB999999999999A#64)) (ready [.accepts])
      = some ([⟨0x02#8, 0x01#8, 0x99#8, 0x90#8⟩], some .returned) := by decide +kernel
/-- F15. -/
theorem test_update_channel :
    sentBy (.facade (.updateChannel "ALL")) (ready [.accepts])
      = some ([⟨0x01#8, 0xF0#8, 0x00#8, 0x00#8⟩], some .returned) := by decide +kernel
/-- F18: AND, not OR. -/
theorem test_ldac :
    sentBy (.facade (.writeToLdacRegister ["ALL"])) (ready [.accepts])
      = some ([⟨0x00#8, 0x00#8, 0x00#8, 0x00#8⟩], some .returned) := by decide +kernel
/-- F24: InvalidArgument, not RangeError, and nothing sent. -/
theorem test_first_error :
    sentBy (.facade (.writeToRegister "Z" 0x4000000000000000#64)) (ready [.accepts])
      = some ([], some (.raised (.core .invalidArgument))) := by decide +kernel
/-- F27: IOError, unchanged, and nothing logged. -/
theorem test_io_error :
    sentBy (.facade (.clearAllToMid)) (ready [.ioError])
      = some ([], some (.raised .ioError)) := by decide +kernel
/-- IN1 and IN3. -/
theorem test_construction :
    ((nextOf (runCall .construct { State.reset with transportPlan := [.accepts, .accepts] })).map
      fun t => (t.transportLog, t.facade))
      = some ([⟨0x07#8, 0x00#8, 0x00#8, 0x00#8⟩, ⟨0x09#8, 0x0A#8, 0x00#8, 0x00#8⟩], .initialized) ∧
    ((nextOf (runCall .construct { State.reset with transportPlan := [.accepts, .ioError] })).map
      fun t => (t.transportLog, t.facade))
      = some ([⟨0x07#8, 0x00#8, 0x00#8, 0x00#8⟩], .uninitialized) := by decide +kernel

/-! ### The step -/

/-- The word put in place by `withFetchWord` is the next request. -/
theorem test_withFetchWord :
    (nextOf (step (State.reset.withFetchWord 8 0b11))).bind currentResponse
      = some (.error .illegalOperation) := by decide +kernel
/-- The reset machine has no host step to run. -/
theorem test_reset_stops : step State.reset = .fault .noHostStep := rfl
/-- F28. -/
theorem test_facade_uninitialized :
    refusalOf (step (oneStep (.call (.facade .softwareReset)))) = some .facadeUninitialized := by
  decide

/-! ### Witnesses: a state and operands that meet each statement's hypotheses -/

/-- The corners of the legal tuples, for the statements over `LegalFields` (WordFieldsHoldTheOperands,
OrOfShiftedFieldsIsConcatenation, EncodedBytesHoldTheNibbles, OnePastEachMaximumIsRejected,
DecodeOfEncodedWordRecoversFields, EncodeAnswersWordAndBytesOrRangeError). -/
theorem test_witness_LegalFields :
    LegalFields 0 0 0 0 0 ∧ LegalFields 15 15 15 65535 15 ∧ LegalFields 1 2 3 0x4567 8 := by
  unfold LegalFields; decide

/-- EncodeAnswersWordAndBytesOrRangeError, the second clause: one past, and one before. -/
theorem test_witness_not_LegalFields :
    ¬ LegalFields 16 0 0 0 0 ∧ ¬ LegalFields 0 0 0 65536 0 ∧ ¬ LegalFields 0 0 0 0 (-1) := by
  unfold LegalFields; decide

theorem test_witness_RequestChangesOnlyTheRecord :
    exec (.mask 0x0005#16) State.reset
      = .next { State.reset with exchanges := [⟨.mask 0x0005#16, .mask 0x05#8⟩] } := rfl

/-- ErrorHasNoEffectButItsResponse and EachOperationReportsItsOwnErrorClass, `op` = 0b11. -/
theorem test_witness_error_reserved :
    ∃ t, runRequest ⟨0b11#2, 16, 0, 0, 0, 0, 0#64, 0#16⟩ State.reset = .next t ∧
      exec .reserved State.reset = .next t ∧
      currentResponse t = some (.error .illegalOperation) := ⟨_, rfl, rfl, rfl⟩

/-- The same, `op` = 0b00. -/
theorem test_witness_error_encode :
    ∃ t, runRequest ⟨0b00#2, 16, 0, 0, 0, 0, 0#64, 0#16⟩ State.reset = .next t ∧
      currentResponse t = some (.error .rangeError) := ⟨_, rfl, rfl⟩

/-- The same, `op` = 0b01: a NaN. -/
theorem test_witness_error_quantize :
    (nextOf (runRequest ⟨0b01#2, 0, 0, 0, 0, 0, 0x7FF8000000000000#64, 0#16⟩ State.reset)).bind
      currentResponse = some (.error .rangeError) := by decide +kernel

/-- The same, `op` = 0b10. -/
theorem test_witness_error_mask :
    ∃ t, runRequest ⟨0b10#2, 0, 0, 0, 0, 0, 0#64, 0x0100#16⟩ State.reset = .next t ∧
      currentResponse t = some (.error .invalidArgument) := ⟨_, rfl, rfl⟩

/-- StatusTellsTheDefinedResult: `err` = OK with each result, and an error. -/
theorem test_witness_StatusTellsTheDefinedResult :
    Answers (.encode 1 2 3 0x4567 8) State.reset
      (.encoded 0x12345678#32 ⟨0x12#8, 0x34#8, 0x56#8, 0x78#8⟩) ∧
    Answers (.mask 0x8000#16) State.reset (.mask 0xFF#8) ∧
    Answers .reserved State.reset (.error .illegalOperation) ∧
    responseErr (.mask 0xFF#8) = 0b00#2 ∧ responseErr (.error .illegalOperation) ≠ 0b00#2 :=
  ⟨rfl, rfl, rfl, rfl, by decide⟩

/-- QuantizeAnswersTruncatedProductOrRangeError, each clause: a NaN, below 0, above 1. -/
theorem test_witness_illegal_unit :
    isNaN 0x7FF0000000000001#64 = true ∧ f64Lt 0x8000000000000001#64 f64Zero = true ∧
    f64Gt 0x3FF0000000000001#64 f64One = true := by decide +kernel

/-- QuantizeAnswersTruncatedProductOrRangeError, QuantizeIsWithinOneOfTheExactFloor and
QuantizeOfTinyOperands: the ends of the legal operands, and 1/3. -/
theorem test_witness_LegalUnit :
    LegalUnit f64Zero ∧ LegalUnit f64One ∧ LegalUnit 0x8000000000000000#64 ∧
    LegalUnit 0x3FD5555555555555#64 := by
  unfold LegalUnit; decide +kernel

/-- QuantizeIsMonotonicAndBounded: −0.0 and 1.0, and 1/3 with itself. -/
theorem test_witness_QuantizeIsMonotonicAndBounded :
    LegalUnit 0x8000000000000000#64 ∧ LegalUnit f64One ∧
    f64Units 0x8000000000000000#64 ≤ f64Units f64One := by
  unfold LegalUnit; decide +kernel

/-- QuantizeAcceptsExactlyTheUnitPatterns, both clauses at the boundary. -/
theorem test_witness_QuantizeAcceptsExactlyTheUnitPatterns :
    (0x3FF0000000000000#64).toNat ≤ 0x3FF0000000000000 ∧
    ¬ ((0x3FF0000000000001#64).toNat ≤ 0x3FF0000000000000 ∨
      0x3FF0000000000001#64 = 0x8000000000000000#64) := by decide +kernel

/-- QuantizeOfTinyOperands: the largest subnormal; the largest operand whose product is below 1. -/
theorem test_witness_QuantizeOfTinyOperands :
    0 < (0x000FFFFFFFFFFFFF#64).toNat ∧ (0x000FFFFFFFFFFFFF#64).toNat < 2 ^ 52 ∧
    f64Lt (quantizeProduct 0x3EF000100010000F#64) f64One = true ∧
    (0x3EF000100010000F#64).toNat < 0x3EF0001000100010 ∧
    isNaN 0x3EF000100010000F#64 = false ∧ f64Lt 0x3EF000100010000F#64 f64Zero = false ∧
    f64Gt 0x3EF000100010000F#64 f64One = false := by decide +kernel

/-- QuantizeInvertsEveryCodeRatio: the two ends, and the k of Q10. -/
theorem test_witness_QuantizeInvertsEveryCodeRatio :
    0 ≤ 65535 ∧ 65535 ≤ 65535 ∧ f64OfRatio false 21845 65535 = 0x3FD5555555555555#64 := by
  decide +kernel

/-- ProductIsNearestTiesToEven: finite operands, within the finite range, and a value to compare. -/
theorem test_witness_ProductIsNearestTiesToEven :
    f64Magnitude 0xBFD5555555555555#64 < infinityMagnitude ∧
    f64Magnitude f64FullScale < infinityMagnitude ∧
    (f64Units 0xBFD5555555555555#64 * f64Units f64FullScale).natAbs
      ≤ (2 ^ 53 - 1) * 2 ^ 2045 * 2 ^ 1074 ∧
    f64Magnitude (fmul64 0xBFD5555555555555#64 f64FullScale) < infinityMagnitude ∧
    f64Magnitude f64One < infinityMagnitude := by decide +kernel

/-- LiteralDenotesTheNearestValue: −0.1 and 2e3, in the finite range, and a value to compare. -/
theorem test_witness_LiteralDenotesTheNearestValue :
    ((-1 : Int) * 1 * 10 ^ (-1 : Int).toNat).natAbs ≤ (2 ^ 53 - 1) * 2 ^ 971 * 10 ^ (1 : Int).toNat ∧
    f64Magnitude (literalBits (.decimal true 1 (-1))) < infinityMagnitude ∧
    f64Magnitude (literalBits (.decimal false 2 3)) < infinityMagnitude ∧
    f64Magnitude f64One < infinityMagnitude := by decide +kernel

/-- ComparisonFollowsTheValues, both clauses. -/
theorem test_witness_ComparisonFollowsTheValues :
    isNaN 0x7FF8000000000000#64 = true ∧ isNaN f64Zero = false ∧
    isNaN 0x7FF0000000000000#64 = false := by decide +kernel

/-- MaskAnswersUnionOrInvalidArgument, each clause at the ends of the code range, and
UnknownLabelIsInvalidArgument, the second clause. -/
theorem test_witness_mask_vectors :
    (0x0100#16).getLsbD 8 = true ∧ (0x4000#16).getLsbD 14 = true ∧
    (∀ c ∈ List.range 15, 8 ≤ c → (0x80FF#16).getLsbD c = false) ∧
    (0x80FF#16).getLsbD 15 = true ∧ (0x0100#16).extractLsb' 8 7 ≠ 0#7 := by decide

/-- LabelListBecomesItsPresenceVector, and the known channel sets of the Facade statements. -/
theorem test_witness_known_labels :
    ∀ l ∈ ["B", "ALL"], ∃ c, lookupChannel l = .ok c := by
  intro l hl
  simp only [List.mem_cons, List.not_mem_nil, or_false] at hl
  rcases hl with rfl | rfl
  · exact ⟨1, by decide⟩
  · exact ⟨15, by decide⟩

theorem test_witness_MaskDependsOnTheSetOfLabels :
    ∀ l, l ∈ ["C", "A"] ↔ l ∈ ["A", "A", "C"] := by
  intro l
  simp only [List.mem_cons, List.not_mem_nil, or_false]
  tauto

/-- UnknownLabelIsInvalidArgument, and the unknown channels of the Facade statements. -/
theorem test_witness_unknown_label :
    "Z" ∈ ["A", "Z"] ∧ ∀ c, lookupChannel "Z" ≠ .ok c := by
  refine ⟨by decide, fun c h => ?_⟩
  have e : lookupChannel "Z" = .error .invalidArgument := by decide
  simp [e] at h

/-- LookupsReadExactlyTheTables: the last row of each table, and a symbol of neither. -/
theorem test_witness_LookupsReadExactlyTheTables :
    (("RESET", 7) : String × BitVec 4) ∈ commandTable ∧
    (("ALL", 15) : String × BitVec 4) ∈ channelTable ∧
    "NOP" ∉ commandTable.map (·.1) ∧ "I" ∉ channelTable.map (·.1) := by decide

/-- ReservedSelectRaisesIllegalOperation and UnselectedOperandsAreIgnored: two requests that differ
in every port their `op` does not select. -/
theorem test_witness_unselected :
    let r : Request := ⟨0b10#2, 16, 0, 0, 0, 0, 0#64, 0x0001#16⟩
    let q : Request := ⟨0b10#2, 0, 1, 2, 3, 4, 0x3FF0000000000000#64, 0x0001#16⟩
    r.op = q.op ∧ r.op ≠ 0b00#2 ∧ r.sel = q.sel ∧ r.pfx ≠ q.pfx ∧ r.v ≠ q.v ∧
    (Request.mk 0b00#2 1 2 3 4 5 0#64 0xFFFF#16).op = 0b00#2 ∧
    (Request.mk 0b01#2 16 0 0 0 0 f64One 0xFFFF#16).op = 0b01#2 ∧
    (Request.mk 0b11#2 16 0 0 0 0 0#64 0#16).op = 0b11#2 := by decide

/-- OperandBeyondItsPortIsRefused, both clauses at the boundary: `control` is the first operand beyond
its port, and `data` is beyond its own too. -/
theorem test_witness_OperandBeyondItsPortIsRefused :
    (∀ x ∈ [(EncodePort.pfx, (-2147483648 : Int)), (.control, 2147483647)],
      -2 ^ 31 ≤ x.2 ∧ x.2 ≤ 2 ^ 31 - 1) ∧
    [(EncodePort.pfx, (0 : Int)), (.control, 2147483648), (.address, 0), (.data, -2147483649),
      (.feature, 0)] = [(.pfx, 0)] ++ (.control, 2147483648) ::
        [(.address, 0), (.data, -2147483649), (.feature, 0)] ∧
    ¬ (-2 ^ 31 ≤ (2147483648 : Int) ∧ (2147483648 : Int) ≤ 2 ^ 31 - 1) := by decide

/-- DecodeOfEncodeIsTheInstruction: an instruction at the ends of its ports. -/
theorem test_witness_DecodeOfEncodeIsTheInstruction :
    (Instr.encode (-2147483648) 2147483647 (-1) 65535 0).wellFormed = true := by decide

/-- StepRunsTheDecodedInstruction, both clauses; StepRunsTheHostCall. -/
theorem test_witness_StepRunsTheDecodedInstruction :
    let s := oneStep (.call (.request (.maskVector 0x8002#16)))
    nextHostStep s = some (.call (.request (.maskVector 0x8002#16))) ∧
    present (.maskVector 0x8002#16) (advance s) = .request ⟨2#2, 0, 0, 0, 0, 0, 0#64, 0x8002#16⟩ ∧
    decode ⟨2#2, 0, 0, 0, 0, 0, 0#64, 0x8002#16⟩ = .ok (.mask 0x8002#16) ∧
    decodeTableWord 8 0b10 = some (.mask 0x0000#16) :=
  ⟨rfl, rfl, by decide, by decide +kernel⟩

/-- PositionAdvancesByOne, HistoryOnlyGrows and StepKeepsTheInvariant: a step that answers a next
state. -/
theorem test_witness_step :
    ∃ t, step (oneStep (.call (.lookupChannel "ALL"))) = .next t ∧
      t.report = some (.value 15) ∧ t.position = 1 := ⟨_, rfl, by decide +kernel, rfl⟩

/-- StepKeepsTheInvariant: the same state meets the invariant. -/
theorem test_witness_Inv : Inv (oneStep (.call (.lookupChannel "ALL"))) :=
  ⟨fun e h => absurd h (by simp [oneStep, State.reset]),
   fun h => absurd h (by simp [oneStep, State.reset]), by simp [PositionInProgram, oneStep, State.reset]⟩

/-- NamedResultIsTheEarlierCode and FailedResultIsNeverSent: a history of a code, an error and a
word. -/
theorem test_witness_named_results :
    let s := { State.reset with exchanges :=
      [⟨.quantize f64One, .code 65535#16⟩, ⟨.mask 0x0100#16, .error .invalidArgument⟩,
       ⟨.encode 0 5 0 0 0, .encoded 0x05000000#32 ⟨0x05#8, 0x00#8, 0x00#8, 0x00#8⟩⟩] }
    responseAt 0 s = some (.code 65535#16) ∧ responseAt 1 s = some (.error .invalidArgument) ∧
    responseAt 2 s = some (.encoded 0x05000000#32 ⟨0x05#8, 0x00#8, 0x00#8, 0x00#8⟩) :=
  ⟨rfl, rfl, rfl⟩

/-- ConcurrentCallsAreRefused and FacadeRefusesUntilInitialized: steps that are refused. -/
theorem test_witness_refused_steps :
    step (oneStep (.concurrent (.facade .softwareReset) .construct))
      = .refused .concurrentInvocation ∧
    step (oneStep (.call (.facade .softwareReset))) = .refused .facadeUninitialized := ⟨rfl, rfl⟩

/-- The Facade statements (FixedWordOperationsSendTheirWords, OneWritePerSuccessfulOperation,
FacadeOperationsArePassThroughs, FirstErrorOfACompositionIsReported and those over channels): an
Initialized Facade, with either answer of the Transport. -/
theorem test_witness_initialized :
    (ready [.accepts]).facade = .initialized ∧ transportAnswer (ready [.accepts]) = .accepts ∧
    (ready [.ioError]).facade = .initialized ∧ transportAnswer (ready [.ioError]) = .ioError :=
  ⟨rfl, rfl, rfl, rfl⟩

/-- ValueOperationsSendTheQuantizedValue, UpdateChannelSendsTheChannelCode and
FirstErrorOfACompositionIsReported: known channels at both ends of the codes, a value out of range
and one in range, and the operations by name. -/
theorem test_witness_channels :
    lookupChannel "A" = .ok 0 ∧ lookupChannel "ALL" = .ok 15 ∧
    f64Gt 0x3FF8000000000000#64 f64One = true ∧ f64Gt f64One f64One = false ∧
    FacadeOp.powerUpDac ["A"] ∈ [.writeToLdacRegister ["A"], .powerUpDac ["A"]] ∧
    ∀ x ∈ [(FacadeOp.writeToRegister "A" f64One, 0), (FacadeOp.writeAndUpdateAll "A" f64One, 2)],
      x ∈ [(FacadeOp.writeToRegister "A" f64One, 0), (FacadeOp.writeAndUpdate "A" f64One, 3),
        (FacadeOp.writeAndUpdateAll "A" f64One, 2)] := by
  decide +kernel

/-- ConstructionSendsBothWords and FailedConstructionStaysUninitialized: the three plans of IN1 to
IN3. -/
theorem test_witness_construction_plans :
    let s := fun plan => { State.reset with transportPlan := plan }
    comingAnswer 0 (s [.accepts, .accepts]) = .accepts ∧
    comingAnswer 1 (s [.accepts, .accepts]) = .accepts ∧
    comingAnswer 0 (s [.ioError]) = .ioError ∧
    comingAnswer 0 (s [.accepts, .ioError]) = .accepts ∧
    comingAnswer 1 (s [.accepts, .ioError]) = .ioError := ⟨rfl, rfl, rfl, rfl, rfl⟩

/-- OnlyConstructionChangesFacadeState: a step that does change it. -/
theorem test_witness_OnlyConstructionChangesFacadeState :
    ∃ t, step { oneStep (.call .construct) with transportPlan := [.accepts, .accepts] } = .next t ∧
      t.facade = .initialized := ⟨_, rfl, rfl⟩

/-- FacadeOperationEqualsItsExpansion: `software_reset()` and its two host calls. -/
theorem test_witness_FacadeOperationEqualsItsExpansion :
    let calls := [HostCall.request (.encode (.int 0) (.int 7) (.int 0) (.int 0) (.int 0)),
      .write (.result 0)]
    let s := { ready [.accepts] with program := calls.map HostStep.call }
    expandFacade .softwareReset s.exchanges.length = .ok calls ∧
    s.program.drop s.position = calls.map HostStep.call ++ [] ∧
    ∃ t, runCall (.facade .softwareReset) s = .next t ∧ t.report = some .returned :=
  ⟨rfl, rfl, _, rfl, rfl⟩

end Sys2Proof.Machine
end

section
/-!
PROOFS. The state family: each response is a function of its request alone (10_state R15), and the
reset values (10_state R31).
-/

namespace Sys2Proof.Machine

/-- The response the core gives to an instruction. It takes no state: the core has none (10_state
R15); `exec_eq_respond` ties it to `exec`. -/
def coreResponse : Instr → Response
  | .encode pfx control address data feature =>
    match encodeFields pfx control address data feature with
    | .ok w => .encoded w (serialize w)
    | .error e => .error e
  | .quantize v =>
    match quantizeValue v with
    | .ok c => .code c
    | .error e => .error e
  | .mask sel =>
    match maskValue sel with
    | .ok m => .mask m
    | .error e => .error e
  | .reserved => .error .illegalOperation

/-- In every state, an instruction is answered with its own response and nothing else happens. -/
theorem exec_eq_respond (i : Instr) (s : State) :
    exec i s = .next (respond i (coreResponse i) s) := by
  cases i with
  | encode pfx control address data feature =>
    cases h : encodeFields pfx control address data feature with
    | ok w => simp only [exec_encode_ok _ _ _ _ _ _ h, coreResponse, h]
    | error e => simp only [exec_encode_error _ _ _ _ _ _ h, coreResponse, h]
  | quantize v =>
    cases h : quantizeValue v with
    | ok c => simp only [exec_quantize_ok _ _ h, coreResponse, h]
    | error e => simp only [exec_quantize_error _ _ h, coreResponse, h]
  | mask sel =>
    cases h : maskValue sel with
    | ok m => simp only [exec_mask_ok _ _ h, coreResponse, h]
    | error e => simp only [exec_mask_error _ _ h, coreResponse, h]
  | reserved => exact exec_reserved s

theorem answers_coreResponse (i : Instr) (s : State) : Answers i s (coreResponse i) :=
  (answers_iff i s _).2 (exec_eq_respond i s)

/-- The response port is not defined before the first request. -/
theorem currentResponse_of_no_exchange {s : State} (h : s.exchanges = []) :
    currentResponse s = none := by
  simp [currentResponse, h]

end Sys2Proof.Machine

open Sys2Proof.Machine

/-- Settles O1: the response is `coreResponse`, which is given the instruction and no state. -/
theorem responseDependsOnRequestAlone : Obligations.ResponseDependsOnRequestAlone :=
  fun i => ⟨coreResponse i, answers_coreResponse i⟩

/-- Settles O57: no exchange has been recorded at reset, and the two tables are constants. -/
theorem resetStateIsAsStated : Obligations.ResetStateIsAsStated :=
  ⟨currentResponse_of_no_exchange reset_exchanges, reset_facade, reset_transportLog, rfl, rfl⟩

end

section
/-!
PROOFS. The memory family: the serialization of a Word (20_memory R35), and which steps are refused,
with the cause of each refusal (20_memory R47).
-/

namespace Sys2Proof.Machine

section Serialize
variable (w : Word)

/-- Neighbouring slices of a word join, so the four bytes in transmission order are the word. -/
theorem serialize_append :
    (serialize w).b0 ++ (serialize w).b1 ++ (serialize w).b2 ++ (serialize w).b3 = w := by
  have h01 : (serialize w).b0 ++ (serialize w).b1 = w.extractLsb' 16 16 :=
    BitVec.extractLsb'_append_extractLsb'_eq_extractLsb' rfl
  have h012 : w.extractLsb' 16 16 ++ (serialize w).b2 = w.extractLsb' 8 24 :=
    BitVec.extractLsb'_append_extractLsb'_eq_extractLsb' rfl
  have h0123 : w.extractLsb' 8 24 ++ (serialize w).b3 = w.extractLsb' 0 32 :=
    BitVec.extractLsb'_append_extractLsb'_eq_extractLsb' rfl
  rw [h01, h012, h0123, BitVec.extractLsb'_eq_self]

/-- The byte of a word that starts at bit `start`, by value. -/
theorem extractByte_toNat (start : Nat) :
    (w.extractLsb' start 8).toNat = w.toNat / 2 ^ start % 256 := by
  rw [BitVec.extractLsb'_toNat, Nat.shiftRight_eq_div_pow]

/-- Above the first byte a word has no bits, so its value needs no remainder. -/
theorem serialize_b0_toNat : (serialize w).b0.toNat = w.toNat / 2 ^ 24 := by
  have h : (serialize w).b0.toNat = w.toNat / 2 ^ 24 % 256 := extractByte_toNat w 24
  have hw : w.toNat < 2 ^ 32 := w.isLt
  omega

theorem serialize_b1_toNat : (serialize w).b1.toNat = w.toNat / 2 ^ 16 % 256 :=
  extractByte_toNat w 16

theorem serialize_b2_toNat : (serialize w).b2.toNat = w.toNat / 2 ^ 8 % 256 :=
  extractByte_toNat w 8

theorem serialize_b3_toNat : (serialize w).b3.toNat = w.toNat % 256 := by
  have h : (serialize w).b3.toNat = w.toNat / 2 ^ 0 % 256 := extractByte_toNat w 0
  rw [h, pow_zero, Nat.div_one]

end Serialize

section Refusals
variable {s : State} {x : Refusal}

/-- No instruction is refused: each is answered. -/
theorem exec_ne_refused (i : Instr) : exec i s ≠ .refused x := by
  simp [exec_eq_respond]

/-- A request is refused only for an operand its port cannot carry. -/
theorem runRequest_refused {r : Request} (h : runRequest r s = .refused x) :
    ∃ port, decode r = .error (.operandBeyondPort port) ∧ x = .operandBeyondPort port := by
  unfold runRequest at h
  split at h
  case h_1 i hi => exact absurd h (exec_ne_refused i)
  case h_2 port hport => exact ⟨port, hport, by simpa using h.symm⟩

/-- A line is refused for its request's operand, or for reading a result that is not defined. -/
theorem runLine_refused {line : RequestLine} (h : runLine line s = .refused x) :
    (∃ port, x = .operandBeyondPort port) ∨ (∃ t, x = .undefinedResult t) := by
  unfold runLine at h
  split at h
  case h_1 r hr =>
    obtain ⟨port, -, hx⟩ := runRequest_refused h
    exact .inl ⟨port, hx⟩
  case h_2 e he => cases h
  case h_3 t ht => exact .inr ⟨t, by simpa using h.symm⟩

/-- A write is refused only for reading a result that is not defined. -/
theorem runWrite_refused {arg : WriteArgument} (h : runWrite arg s = .refused x) :
    ∃ t, writeFrame arg s = .error t ∧ x = .undefinedResult t := by
  unfold runWrite at h
  split at h
  case h_1 f hf => cases h
  case h_2 t ht => exact ⟨t, ht, by simpa using h.symm⟩

/-- A Facade operation is refused only before the Facade is Initialized. -/
theorem runFacadeCall_refused {op : FacadeOp} (h : runFacadeCall op s = .refused x) :
    s.facade = .uninitialized ∧ x = .facadeUninitialized := by
  unfold runFacadeCall at h
  split at h
  case h_1 hs => cases h
  case h_2 hs => exact ⟨hs, by simpa using h.symm⟩

/-- The three causes for which a single call can be refused. -/
theorem runCall_refused {c : HostCall} (h : runCall c s = .refused x) :
    (∃ port, x = .operandBeyondPort port) ∨ (∃ t, x = .undefinedResult t) ∨
      x = .facadeUninitialized := by
  cases c with
  | request line =>
    obtain hport | ht := runLine_refused h
    · exact .inl hport
    · exact .inr (.inl ht)
  | lookupCommand name => cases h
  | lookupChannel label => cases h
  | write arg =>
    obtain ⟨t, -, hx⟩ := runWrite_refused h
    exact .inr (.inl ⟨t, hx⟩)
  | construct => cases h
  | facade op => exact .inr (.inr (runFacadeCall_refused h).2)

/-- A single call is never refused as a concurrent one. -/
theorem runCall_ne_concurrentInvocation (c : HostCall) :
    runCall c s ≠ .refused .concurrentInvocation := by
  intro h
  obtain ⟨port, hx⟩ | ⟨t, hx⟩ | hx := runCall_refused h <;> cases hx

/-- The step of a concurrent entry. -/
theorem step_of_concurrent {c d : HostCall} (h : nextHostStep s = some (.concurrent c d)) :
    step s = .refused .concurrentInvocation := by
  simp [step, h, runHostStep]

end Refusals

end Sys2Proof.Machine

open Sys2Proof.Machine

/-- Settles O40: of the three kinds of step in `step_cases`, the end of the list is a fault and a
single call has other causes of refusal. -/
theorem concurrentCallsAreRefused : Obligations.ConcurrentCallsAreRefused := by
  intro s
  constructor
  · intro h
    obtain ⟨-, hs⟩ | ⟨c, d, hn, -⟩ | ⟨c, -, hs⟩ := step_cases s
    · cases hs.symm.trans h
    · exact ⟨c, d, hn⟩
    · exact absurd (hs.symm.trans h) (runCall_ne_concurrentInvocation c)
  · rintro ⟨c, d, hn⟩
    exact step_of_concurrent hn

/-- Settles O11: the bytes are neighbouring slices of the word. -/
theorem serializationIsBigEndian : Obligations.SerializationIsBigEndian :=
  fun w => ⟨serialize_append w, serialize_b0_toNat w, serialize_b1_toNat w, serialize_b2_toNat w,
    serialize_b3_toNat w⟩

end

section
/-!
PROOFS. The encoding family: each field of an encoded word is its operand (30_encoding R50), and
IllegalOperation answers the reserved select alone (30_encoding R49, 60_exceptions R110).
-/

namespace Sys2Proof.Machine

section Fields
variable {p c a d f : Int}

/-- A value that stays below a shifted one does not carry into it. -/
theorem shiftLeft_or_of_lt {hi lo k : Nat} (h : lo < 2 ^ k) : hi <<< k ||| lo = hi * 2 ^ k + lo := by
  rw [← Nat.shiftLeft_add_eq_or_of_lt h, Nat.shiftLeft_eq]

/-- No two shifted fields overlap, so the word is their sum (30_encoding R52). -/
theorem packWord_toNat (h : LegalFields p c a d f) :
    ((packWord p c a d f).toNat : Int)
      = p * 2 ^ 28 + c * 2 ^ 24 + a * 2 ^ 20 + d * 2 ^ 4 + f := by
  obtain ⟨hp, hp', hc, hc', ha, ha', hd, hd', hf, hf'⟩ := h
  lift p to Nat using hp
  lift c to Nat using hc
  lift a to Nat using ha
  lift d to Nat using hd
  lift f to Nat using hf
  have hor : p <<< 28 ||| c <<< 24 ||| a <<< 20 ||| d <<< 4 ||| f
      = p * 2 ^ 28 + (c * 2 ^ 24 + (a * 2 ^ 20 + (d * 2 ^ 4 + f))) := by
    simp only [Nat.or_assoc]
    rw [shiftLeft_or_of_lt (by omega : f < 2 ^ 4),
      shiftLeft_or_of_lt (by omega : d * 2 ^ 4 + f < 2 ^ 20),
      shiftLeft_or_of_lt (by omega : a * 2 ^ 20 + (d * 2 ^ 4 + f) < 2 ^ 24),
      shiftLeft_or_of_lt (by omega : c * 2 ^ 24 + (a * 2 ^ 20 + (d * 2 ^ 4 + f)) < 2 ^ 28)]
  simp only [packWord, Int.toNat_natCast, hor, BitVec.toNat_ofNat]
  omega

/-- The field of a word that starts at bit `start` and is `len` bits wide, as an integer. -/
theorem field_toNat (w : Word) (start len : Nat) :
    ((w.extractLsb' start len).toNat : Int) = (w.toNat : Int) / 2 ^ start % 2 ^ len := by
  rw [BitVec.extractLsb'_toNat, Nat.shiftRight_eq_div_pow]
  push_cast
  rfl

/-- The five fields of a packed word read back as the operands. -/
theorem packWord_fields (h : LegalFields p c a d f) :
    (((packWord p c a d f).extractLsb' 28 4).toNat : Int) = p ∧
    (((packWord p c a d f).extractLsb' 24 4).toNat : Int) = c ∧
    (((packWord p c a d f).extractLsb' 20 4).toNat : Int) = a ∧
    (((packWord p c a d f).extractLsb' 4 16).toNat : Int) = d ∧
    (((packWord p c a d f).extractLsb' 0 4).toNat : Int) = f := by
  have hsum := packWord_toNat h
  obtain ⟨hp, hp', hc, hc', ha, ha', hd, hd', hf, hf'⟩ := h
  simp only [field_toNat, hsum]
  refine ⟨?_, ?_, ?_, ?_, ?_⟩ <;> omega

/-- A legal tuple is answered with its packed word and the word's serialization. -/
theorem answers_encode_of_legal (s : State) (h : LegalFields p c a d f) :
    Answers (.encode p c a d f) s
      (.encoded (packWord p c a d f) (serialize (packWord p c a d f))) :=
  (answers_iff _ s _).2 (exec_encode_ok p c a d f s (encodeFields_of_legal h))

end Fields

section Errors
variable {e : CoreError}

/-- ENCODE fails only with RangeError (40_word_encoder R69). -/
theorem encodeFields_error {p c a d f : Int} (h : encodeFields p c a d f = .error e) :
    e = .rangeError := by
  unfold encodeFields at h
  split at h
  case isTrue => cases h
  case isFalse => cases h; rfl

/-- QUANTIZE fails only with RangeError (41_quantizer R72). -/
theorem quantizeValue_error {v : F64} (h : quantizeValue v = .error e) : e = .rangeError := by
  unfold quantizeValue at h
  split_ifs at h <;> cases h <;> rfl

/-- MASK fails only with InvalidArgument (42_channel_mask R79). -/
theorem maskValue_error {sel : PresenceVector} (h : maskValue sel = .error e) :
    e = .invalidArgument := by
  unfold maskValue at h
  split at h
  case isTrue => cases h; rfl
  case isFalse => cases h

/-- IllegalOperation is the response to the reserved instruction and to no other. -/
theorem coreResponse_eq_illegalOperation_iff (i : Instr) :
    coreResponse i = .error .illegalOperation ↔ i = .reserved := by
  cases i with
  | encode p c a d f =>
    cases h : encodeFields p c a d f with
    | ok w => simp [coreResponse, h]
    | error e => simp [coreResponse, h, encodeFields_error h]
  | quantize v =>
    cases h : quantizeValue v with
    | ok code => simp [coreResponse, h]
    | error e => simp [coreResponse, h, quantizeValue_error h]
  | mask sel =>
    cases h : maskValue sel with
    | ok m => simp [coreResponse, h]
    | error e => simp [coreResponse, h, maskValue_error h]
  | reserved => simp [coreResponse]

end Errors

section Requests
variable {r : Request} {s t : State}

/-- ENCODE's operands never decode to the reserved instruction. -/
theorem decodeEncode_ne_reserved (r : Request) : decodeEncode r ≠ .ok .reserved := by
  unfold decodeEncode
  split_ifs <;> simp

/-- The reserved instruction is the reserved select, whatever stands on the operand ports
(30_encoding R49). -/
theorem decode_eq_reserved_iff : decode r = .ok .reserved ↔ r.op = 0b11#2 := by
  unfold decode
  split_ifs with h0 h1 h2
  · simp [h0, decodeEncode_ne_reserved]
  · simp [h1]
  · simp [h2]
  · have h3 : r.op = 0b11#2 := by bv_omega
    simp [h3]

/-- A request that decodes is answered with its instruction's response. -/
theorem runRequest_of_decode {i : Instr} (h : decode r = .ok i) :
    runRequest r s = .next (respond i (coreResponse i) s) := by
  simp [runRequest, h, exec_eq_respond]

/-- What a request that has a next state has done: it has decoded and been answered. -/
theorem runRequest_next (h : runRequest r s = .next t) :
    ∃ i, decode r = .ok i ∧ t = respond i (coreResponse i) s := by
  cases hd : decode r with
  | ok i =>
    rw [runRequest_of_decode hd] at h
    cases h
    exact ⟨i, rfl, rfl⟩
  | error e =>
    obtain ⟨port⟩ := e
    simp [runRequest, hd] at h

/-- After a response the response port shows it. -/
@[simp] theorem currentResponse_respond (i : Instr) (x : Response) (s : State) :
    currentResponse (respond i x s) = some x := by
  simp [currentResponse]

end Requests

end Sys2Proof.Machine

open Sys2Proof.Machine

/-- Settles O8: the word is `packWord` of the operands. -/
theorem wordFieldsHoldTheOperands : Obligations.WordFieldsHoldTheOperands :=
  fun p c a d f s h => ⟨packWord p c a d f, answers_encode_of_legal s h, packWord_fields h⟩

/-- Settles O31: `op` = 0b11 is what decodes to the reserved instruction, and that instruction alone
is answered with IllegalOperation. -/
theorem reservedSelectRaisesIllegalOperation :
    Obligations.ReservedSelectRaisesIllegalOperation := by
  constructor
  · intro r s hop
    exact ⟨runRequest_of_decode (decode_eq_reserved_iff.2 hop), answers_coreResponse .reserved s⟩
  · intro r s t ht hresp
    obtain ⟨i, hdecode, rfl⟩ := runRequest_next ht
    rw [currentResponse_respond, Option.some.injEq, coreResponse_eq_illegalOperation_iff] at hresp
    exact decode_eq_reserved_iff.1 (hresp ▸ hdecode)

end

section
/-!
PROOFS. The word encoder family: ENCODE's word and bytes for a legal tuple (40_word_encoder R64, R67),
and RangeError for every other (R65, R71).
-/

namespace Sys2Proof.Machine

section WordEncoder
variable {p c a d f : Int}

/-- No legal operand, once shifted, reaches bit 32, so the cut to 32 bits loses nothing
(40_word_encoder R64). -/
theorem packWord_toNat_eq_or (h : LegalFields p c a d f) :
    (packWord p c a d f).toNat = p.toNat <<< 28 ||| c.toNat <<< 24 ||| a.toNat <<< 20
      ||| d.toNat <<< 4 ||| f.toNat := by
  obtain ⟨-, hp, -, hc, -, ha, -, hd, -, hf⟩ := h
  have hp' : p.toNat <<< 28 < 2 ^ 32 := by rw [Nat.shiftLeft_eq]; omega
  have hc' : c.toNat <<< 24 < 2 ^ 32 := by rw [Nat.shiftLeft_eq]; omega
  have ha' : a.toNat <<< 20 < 2 ^ 32 := by rw [Nat.shiftLeft_eq]; omega
  have hd' : d.toNat <<< 4 < 2 ^ 32 := by rw [Nat.shiftLeft_eq]; omega
  have hf' : f.toNat < 2 ^ 32 := by omega
  rw [packWord, BitVec.toNat_ofNat, Nat.mod_eq_of_lt]
  exact Nat.or_lt_two_pow (Nat.or_lt_two_pow (Nat.or_lt_two_pow (Nat.or_lt_two_pow hp' hc') ha') hd')
    hf'

/-- The four bytes of a packed word, each from the operands that meet in it (40_word_encoder R67). -/
theorem serialize_packWord_toNat (h : LegalFields p c a d f) :
    ((serialize (packWord p c a d f)).b0.toNat : Int) = p * 16 + c ∧
    ((serialize (packWord p c a d f)).b1.toNat : Int) = a * 16 + d / 4096 ∧
    ((serialize (packWord p c a d f)).b2.toNat : Int) = d / 16 % 256 ∧
    ((serialize (packWord p c a d f)).b3.toNat : Int) = d % 16 * 16 + f := by
  have hsum := packWord_toNat h
  obtain ⟨hp, hp', hc, hc', ha, ha', hd, hd', hf, hf'⟩ := h
  rw [serialize_b0_toNat, serialize_b1_toNat, serialize_b2_toNat, serialize_b3_toNat]
  refine ⟨?_, ?_, ?_, ?_⟩ <;> omega

/-- A tuple that is not legal is answered with RangeError. -/
theorem answers_encode_of_not_legal (s : State) (h : ¬ LegalFields p c a d f) :
    Answers (.encode p c a d f) s (.error .rangeError) :=
  (answers_iff _ s _).2 (exec_encode_error p c a d f s (encodeFields_of_not_legal h))

/-- One operand above its field's maximum is enough for a tuple not to be legal. -/
theorem not_legalFields_of_above_maximum
    (h : 15 < p ∨ 15 < c ∨ 15 < a ∨ 65535 < d ∨ 15 < f) : ¬ LegalFields p c a d f := by
  rintro ⟨-, hp, -, hc, -, ha, -, hd, -, hf⟩
  omega

end WordEncoder

end Sys2Proof.Machine

open Sys2Proof.Machine

/-- Settles O7: the word is `packWord` of the operands, whose serialization is the four slices. -/
theorem encodeAnswersWordAndBytesOrRangeError :
    Obligations.EncodeAnswersWordAndBytesOrRangeError :=
  fun p c a d f s =>
    ⟨fun h => ⟨packWord p c a d f, packWord_toNat_eq_or h, answers_encode_of_legal s h⟩,
      answers_encode_of_not_legal s⟩

/-- Settles O10: the bytes are the serialization of `packWord`. -/
theorem encodedBytesHoldTheNibbles : Obligations.EncodedBytesHoldTheNibbles :=
  fun p c a d f s h => ⟨packWord p c a d f, serialize (packWord p c a d f),
    answers_encode_of_legal s h, serialize_packWord_toNat h⟩

/-- Settles O14: each of the five tuples has one operand above its field's maximum; that the others
are legal is not needed. -/
theorem onePastEachMaximumIsRejected : Obligations.OnePastEachMaximumIsRejected := by
  intro p c a d f s _
  refine ⟨?_, ?_, ?_, ?_, ?_⟩ <;>
    exact answers_encode_of_not_legal s (not_legalFields_of_above_maximum (by omega))

end

section
/-!
PROOFS. The quantizer family: QUANTIZE is monotonic and its code is the uncut floor of the rounded
product (41_quantizer R72, R76).
-/

namespace Sys2Proof.Machine

theorem natCast_shiftRight_eq_ediv (n k : Nat) : ((n >>> k : Nat) : Int) = (n : Int) / 2 ^ k := by
  rw [Nat.shiftRight_eq_div_pow, Int.natCast_ediv, Nat.cast_pow, Nat.cast_ofNat]

/-- A shift that rounds up, negated, is the floor of the negated quotient. -/
theorem neg_add_shiftRight_eq_ediv (n k : Nat) :
    -(((n + (2 ^ k - 1)) >>> k : Nat) : Int) = -(n : Int) / 2 ^ k := by
  have hd : 0 < 2 ^ k := pow_pos two_pos k
  have hd' : (0 : Int) < 2 ^ k := pow_pos two_pos k
  rw [Nat.shiftRight_eq_div_pow]
  have hfloor := Nat.div_mul_le_self (n + (2 ^ k - 1)) (2 ^ k)
  have hnext := Nat.lt_div_mul_add hd (a := n + (2 ^ k - 1))
  generalize (n + (2 ^ k - 1)) / 2 ^ k = q at *
  have hle : (n : Int) ≤ q * 2 ^ k := by exact_mod_cast (by omega : n ≤ q * 2 ^ k)
  have hlt : (q : Int) * 2 ^ k < n + 2 ^ k := by exact_mod_cast (by omega : q * 2 ^ k < n + 2 ^ k)
  refine ((Int.ediv_eq_iff_of_pos hd').2 ⟨?_, ?_⟩).symm <;> linarith

/-- The floor is that of the value, given in units of 2^-1074 (00_scope R11, R12). -/
theorem f64Floor_eq (x : F64) : f64Floor x = f64Units x / 2 ^ 1074 := by
  simp only [f64Floor, f64Units, Nat.shiftLeft_eq]
  split
  case isTrue => exact neg_add_shiftRight_eq_ediv _ 1074
  case isFalse => exact natCast_shiftRight_eq_ediv _ 1074

theorem f64Floor_mono {x y : F64} (h : f64Units x ≤ f64Units y) : f64Floor x ≤ f64Floor y := by
  rw [f64Floor_eq, f64Floor_eq]
  exact Int.ediv_le_ediv (by positivity) h

/-- A pattern that is negative only as −0.0 has the value of its magnitude. -/
theorem f64Units_eq_unitsOf {x : F64} (h : f64Sign x = true → f64Magnitude x = 0) :
    f64Units x = unitsOf (f64Magnitude x) := by
  rw [f64Units_eq]
  split
  case isTrue hs => simp [h hs, unitsOf_zero]
  case isFalse => rfl

@[simp] theorem nearestMagnitude_zero (den : Nat) : nearestMagnitude 0 den = 0 := if_pos rfl

section LegalOperands
variable {v w : F64}

theorem f64Units_of_legal (h : LegalUnit v) : f64Units v = unitsOf (f64Magnitude v) :=
  f64Units_eq_unitsOf ((legalUnit_iff v).1 h).2

theorem legalUnit_one : LegalUnit f64One :=
  (legalUnit_iff f64One).2 (by decide +kernel)

/-- No legal operand is above 1.0. -/
theorem f64Units_le_one (h : LegalUnit v) : f64Units v ≤ f64Units f64One := by
  have hone : f64Magnitude f64One = 0x3FF0000000000000 := by decide +kernel
  have hle : f64Magnitude v ≤ f64Magnitude f64One := hone ▸ ((legalUnit_iff v).1 h).1
  rw [f64Units_of_legal h, f64Units_of_legal legalUnit_one]
  exact_mod_cast unitsOf_strictMono.monotone hle

/-- The value of a legal operand's product: the exact product, rounded. -/
theorem f64Units_quantizeProduct (h : LegalUnit v) :
    f64Units (quantizeProduct v)
      = unitsOf (nearestMagnitude
          (unitsOf (f64Magnitude v) * unitsOf (f64Magnitude f64FullScale)) (2 ^ 1074)) := by
  have hsign : f64Sign f64FullScale = false := by decide +kernel
  rw [quantizeProduct, f64Units_eq_unitsOf, fmul64_magnitude]
  intro hneg
  rw [fmul64_sign, hsign, Bool.bne_false] at hneg
  rw [fmul64_magnitude, ((legalUnit_iff v).1 h).2 hneg, unitsOf_zero, Nat.zero_mul,
    nearestMagnitude_zero]

/-- The rounded product is monotonic, because the rounding is. -/
theorem quantizeProduct_mono (hv : LegalUnit v) (hw : LegalUnit w) (h : f64Units v ≤ f64Units w) :
    f64Units (quantizeProduct v) ≤ f64Units (quantizeProduct w) := by
  rw [f64Units_of_legal hv, f64Units_of_legal hw, Int.ofNat_le] at h
  rw [f64Units_quantizeProduct hv, f64Units_quantizeProduct hw, Int.ofNat_le]
  exact unitsOf_strictMono.monotone
    (nearestMagnitude_mono (pow_pos two_pos _) (Nat.mul_le_mul_right _ h))

theorem floor_quantizeProduct_nonneg (h : LegalUnit v) : 0 ≤ f64Floor (quantizeProduct v) := by
  rw [f64Floor_eq, f64Units_quantizeProduct h]
  positivity

/-- The bound is met at 1.0, whose product is 65535.0 (41_quantizer R75). -/
theorem floor_quantizeProduct_le (h : LegalUnit v) : f64Floor (quantizeProduct v) ≤ 65535 := by
  have hone : f64Floor (quantizeProduct f64One) = 65535 := by decide +kernel
  exact hone ▸ f64Floor_mono (quantizeProduct_mono h legalUnit_one (f64Units_le_one h))

theorem quantizeValue_of_legal (h : LegalUnit v) :
    quantizeValue v = .ok (BitVec.ofInt 16 (f64Floor (quantizeProduct v))) := by
  obtain ⟨hnan, hlt, hgt⟩ := h
  simp [quantizeValue, hnan, hlt, hgt]

/-- A legal operand is answered with a code that is the floor of the product itself: the cut to 16
bits loses nothing. -/
theorem answers_quantize_of_legal (s : State) (h : LegalUnit v) :
    ∃ c : DacCode, Answers (.quantize v) s (.code c) ∧ f64Floor (quantizeProduct v) = c.toNat := by
  refine ⟨_, (answers_iff _ s _).2 (exec_quantize_ok v s (quantizeValue_of_legal h)), ?_⟩
  have hnonneg := floor_quantizeProduct_nonneg h
  have hle := floor_quantizeProduct_le h
  rw [BitVec.toNat_ofInt]
  omega

end LegalOperands

/-- Every code fits ENCODE's data field. -/
theorem fits_code (c : DacCode) : fits c.toNat 16 = true := by
  have hc := c.isLt
  exact (fits_iff _ _).2 (by omega)

end Sys2Proof.Machine

open Sys2Proof.Machine

/-- Settles O17: the codes are the floors of the products, and both the rounding and the floor are
monotonic. -/
theorem quantizeIsMonotonicAndBounded : Obligations.QuantizeIsMonotonicAndBounded := by
  intro v w s hv hw hvw
  obtain ⟨c, hanswerV, hc⟩ := answers_quantize_of_legal s hv
  obtain ⟨d, hanswerW, hd⟩ := answers_quantize_of_legal s hw
  have hcd : c.toNat ≤ d.toNat := by
    have hfloor := f64Floor_mono (quantizeProduct_mono hv hw hvw)
    omega
  exact ⟨c, d, hanswerV, hanswerW, hcd, hc, floor_quantizeProduct_nonneg hv,
    floor_quantizeProduct_le hv, fits_code c⟩

end

section
/-!
PROOFS. The channel mask family: MASK's mask bit by bit and its one error (42_channel_mask R79 to
R81), and a label list answered through its presence vector (R82, R85).
-/

namespace Sys2Proof.Machine

section ChannelMask
variable {sel : PresenceVector}

/-- An unrecognized label is a set bit among `sel[14:8]` (42_channel_mask R83). -/
theorem extractLsb'_unknown_ne_zero_iff :
    sel.extractLsb' 8 7 ≠ 0#7 ↔ ∃ c, 8 ≤ c ∧ c ≤ 14 ∧ sel.getLsbD c = true := by
  constructor
  · intro hne
    by_contra! hnone
    refine hne (BitVec.eq_of_getLsbD_eq fun i hi => ?_)
    have hbit : sel.getLsbD (8 + i) = false :=
      Bool.eq_false_iff.2 (hnone (8 + i) (by omega) (by omega))
    simp [hbit]
  · rintro ⟨c, hc, hc', hbit⟩ hzero
    have hfield : (sel.extractLsb' 8 7).getLsbD (c - 8) = sel.getLsbD c := by
      rw [BitVec.getLsbD_extractLsb', Nat.add_sub_cancel' hc]
      simp [show c - 8 < 7 by omega]
    simp [hzero, hbit] at hfield

/-- An unrecognized label is the error, whatever else is present, ALL included. -/
theorem maskValue_of_unknown (h : ∃ c, 8 ≤ c ∧ c ≤ 14 ∧ sel.getLsbD c = true) :
    maskValue sel = .error .invalidArgument :=
  if_pos (extractLsb'_unknown_ne_zero_iff.2 h)

theorem getLsbD_fullMask {i : Nat} (hi : i < 8) : (0xFF#8).getLsbD i = true :=
  BitVec.getLsbD_allOnes.trans (decide_eq_true hi)

/-- The mask ALL forces is the one with all eight bits set (42_channel_mask R81). -/
theorem eq_fullMask {m : ChannelMask} (h : ∀ i, i < 8 → m.getLsbD i = true) : m = 0xFF#8 :=
  BitVec.eq_of_getLsbD_eq fun i hi => (h i hi).trans (getLsbD_fullMask hi).symm

/-- Without an unrecognized label the mask joins the bits of A to H with ALL's. -/
theorem maskValue_of_no_unknown (h : ∀ c, 8 ≤ c → c ≤ 14 → sel.getLsbD c = false) :
    ∃ m, maskValue sel = .ok m ∧
      ∀ i, i < 8 → m.getLsbD i = (sel.getLsbD i || sel.getLsbD 15) := by
  have hnone : ¬ sel.extractLsb' 8 7 ≠ 0#7 := by
    rw [extractLsb'_unknown_ne_zero_iff]
    rintro ⟨c, hc, hc', hbit⟩
    exact Bool.false_ne_true ((h c hc hc').symm.trans hbit)
  refine ⟨_, if_neg hnone, fun i hi => ?_⟩
  split
  case isTrue hall =>
    rw [BitVec.getLsbD_or, getLsbD_fullMask hi, hall, Bool.or_true, Bool.or_true]
  case isFalse hall =>
    rw [Bool.eq_false_iff.2 hall, Bool.or_false]
    simp [hi]

/-- A list of known labels asks the core for its presence vector's mask (42_channel_mask R82). -/
theorem runCall_mask_of_presenceOf {labels : List String} (s : State)
    (h : presenceOf labels = .ok sel) :
    runCall (.request (.mask labels)) s = exec (.mask sel) s := by
  have hpresent : present (.mask labels) s = .request (Instr.mask sel).request := by
    simp [present, presentMask, h]
  have hdecode : decode (Instr.mask sel).request = .ok (.mask sel) :=
    (Laws.DecodeOfRequest.mask sel rfl).2
  simp [runCall, runLine, hpresent, runRequest, hdecode]

theorem runCall_mask_ok {labels : List String} {m : ChannelMask} (s : State)
    (hsel : presenceOf labels = .ok sel) (hm : maskValue sel = .ok m) :
    runCall (.request (.mask labels)) s = .next (respond (.mask sel) (.mask m) s) :=
  (runCall_mask_of_presenceOf s hsel).trans (exec_mask_ok sel s hm)

end ChannelMask

end Sys2Proof.Machine

open Sys2Proof.Machine

/-- Settles O25: the clauses are the two branches of `maskValue`, and ALL's bit sets all eight. -/
theorem maskAnswersUnionOrInvalidArgument : Obligations.MaskAnswersUnionOrInvalidArgument := by
  intro sel s
  refine ⟨fun h => exec_mask_error sel s (maskValue_of_unknown h), fun h => ?_⟩
  obtain ⟨m, hm, hbits⟩ := maskValue_of_no_unknown h
  refine ⟨m, exec_mask_ok sel s hm, hbits, fun hall => eq_fullMask fun i hi => ?_⟩
  rw [hbits i hi, hall, Bool.or_true]

/-- Settles O26: each list has the stated presence vector, and the vector the stated mask. -/
theorem maskOfTheSourceExamples : Obligations.MaskOfTheSourceExamples :=
  fun s => ⟨runCall_mask_ok s (by decide) (by decide), runCall_mask_ok s (by decide) (by decide),
    runCall_mask_ok s (by decide) (by decide)⟩

end

section
/-!
PROOFS. The host composition family: the Device Facade's operations (43_host_compositions R88 to
R101). Each shape of composition has one equation per way it can end, and every operation is a
`PassThrough`: what it asks, sends and reports is settled before it sees a state.
-/

namespace Sys2Proof.Machine

/-- `s` with these exchanges recorded: what a composition has done before it writes or fails. -/
def recorded (s : State) (requests : List Exchange) : State :=
  { s with exchanges := s.exchanges ++ requests }

/-- In every state the composition makes the same requests and then attempts one write of the same
frame, or ends with the same RangeError or InvalidArgument (43_host_compositions R88, R89). -/
def PassThrough (run : State → HostResult Unit) : Prop :=
  (∃ requests f, ∀ s, run s = transportWrite f (recorded s requests)) ∨
  (∃ requests e, (e = .rangeError ∨ e = .invalidArgument) ∧
    ∀ s, run s = (recorded s requests, .error (.core e)))

section Recorded
variable (s : State) (requests : List Exchange)

@[simp] theorem recorded_nil : recorded s [] = s := by simp [recorded]

theorem respond_eq_recorded (i : Instr) (r : Response) : respond i r s = recorded s [⟨i, r⟩] := rfl

@[simp] theorem recorded_recorded (more : List Exchange) :
    recorded (recorded s requests) more = recorded s (requests ++ more) := by
  simp [recorded]

@[simp] theorem afterCall_recorded_nil (frames : List Frame) (attempts : Nat) (report : Report) :
    afterCall (recorded s requests) [] frames attempts report
      = afterCall s requests frames attempts report := by
  simp [afterCall, recorded]

end Recorded

section FacadeCall
variable {op : FacadeOp} {s : State} {requests : List Exchange}

theorem runCall_facade (hs : s.facade = .initialized) (op : FacadeOp) :
    runCall (.facade op) s = .next (finish (runFacade op s)) := by
  simp [runCall, runFacadeCall, hs]

/-- An operation that comes to its one write returns or passes the IOError on. -/
theorem callWrites_of_runFacade {f : Frame} (hs : s.facade = .initialized)
    (hrun : runFacade op s = transportWrite f (recorded s requests)) :
    CallWrites (.facade op) s requests f := by
  refine ⟨fun h => ?_, fun h => ?_⟩
  · rw [runCall_facade hs, hrun, finish_transportWrite_accepts f (recorded s requests) h,
      afterCall_recorded_nil]
  · rw [runCall_facade hs, hrun, finish_transportWrite_ioError f (recorded s requests) h,
      afterCall_recorded_nil]

/-- An operation that ends with a core error reports it and attempts no write. -/
theorem callFails_of_runFacade {e : CoreError} (hs : s.facade = .initialized)
    (hrun : runFacade op s = (recorded s requests, .error (.core e))) :
    CallFails (.facade op) s requests e := by
  rw [CallFails, runCall_facade hs, hrun]
  simp [finish, afterCall, recorded]

end FacadeCall

section Operands

theorem lookupChannel_of_unknown {ch : String} (h : ∀ a, lookupChannel ch ≠ .ok a) :
    lookupChannel ch = .error .invalidArgument := by
  cases hl : lookupChannel ch with
  | ok a => exact absurd hl (h a)
  | error e => rw [lookupChannel_error hl]

theorem quantizeValue_of_not_legal {v : F64} (h : ¬ LegalUnit v) :
    quantizeValue v = .error .rangeError := by
  cases hq : quantizeValue v with
  | ok c =>
    refine absurd ?_ h
    unfold quantizeValue at hq
    split_ifs at hq with hnan hlt hgt
    exact ⟨Bool.eq_false_iff.2 hnan, Bool.eq_false_iff.2 hlt, Bool.eq_false_iff.2 hgt⟩
  | error e => rw [quantizeValue_error hq]

/-- An address code and a DAC code fit their fields, whatever they are. -/
theorem legalFields_of_codes {control : Nat} (hcontrol : control ≤ 15) (a : BitVec 4)
    (q : DacCode) : LegalFields 0 control a.toNat q.toNat 0 := by
  have ha := a.isLt
  have hq := q.isLt
  unfold LegalFields
  omega

theorem legalFields_updateChannel (a : BitVec 4) : LegalFields 0 1 a.toNat 0 0 :=
  legalFields_of_codes (control := 1) (by decide) a 0#16

/-- No known label has a code from 8 to 14, so its presence vector has a mask. -/
theorem presenceOf_of_known {labels : List String}
    (h : ∀ l ∈ labels, ∃ c, lookupChannel l = .ok c) :
    ∃ sel m, presenceOf labels = .ok sel ∧ maskValue sel = .ok m := by
  obtain ⟨sel, hsel, hbits⟩ := presenceFrom_ok labels 0#16 h
  have hnone : ∀ i, 8 ≤ i → i ≤ 14 → sel.getLsbD i = false := by
    intro i hi hi'
    refine Bool.eq_false_iff.2 fun hbit => ?_
    obtain hzero | ⟨l, -, c, hl, rfl⟩ := (hbits i).1 hbit
    · simp at hzero
    · obtain hc | rfl := lookupChannel_code hl
      · omega
      · exact absurd hi' (by decide)
  obtain ⟨m, hm, -⟩ := maskValue_of_no_unknown hnone
  exact ⟨sel, m, hsel, hm⟩

end Operands

section Compositions
variable {ch : String} {x : F64} {a : BitVec 4} {chs : List String}

/-- Legal fields: the ENCODE request, then the write of its word (43_host_compositions R90). -/
theorem sendFields_of_legal {p c a d f : Int} (h : LegalFields p c a d f) (s : State) :
    sendFields p c a d f s = transportWrite (serialize (packWord p c a d f))
      (recorded s [⟨.encode p c a d f,
        .encoded (packWord p c a d f) (serialize (packWord p c a d f))⟩]) := by
  simp [sendFields, askEncode_ok p c a d f s (encodeFields_of_legal h), respond_eq_recorded]

theorem sendValue_of_unknown (control : Int) (hch : ∀ a, lookupChannel ch ≠ .ok a) (s : State) :
    sendValue control ch x s = (recorded s [], .error (.core .invalidArgument)) := by
  simp [sendValue, lookupChannel_of_unknown hch]

theorem sendValue_of_not_legal (control : Int) (ha : lookupChannel ch = .ok a)
    (hx : ¬ LegalUnit x) (s : State) :
    sendValue control ch x s
      = (recorded s [⟨.quantize x, .error .rangeError⟩], .error (.core .rangeError)) := by
  simp [sendValue, ha, askQuantize_error x s (quantizeValue_of_not_legal hx), respond_eq_recorded]

theorem sendValue_of_code {control : Nat} {q : DacCode} (hcontrol : control ≤ 15)
    (ha : lookupChannel ch = .ok a) (hq : quantizeValue x = .ok q) (s : State) :
    sendValue control ch x s
      = transportWrite (serialize (packWord 0 control a.toNat q.toNat 0))
          (recorded s [⟨.quantize x, .code q⟩, ⟨.encode 0 control a.toNat q.toNat 0,
            .encoded (packWord 0 control a.toNat q.toNat 0)
              (serialize (packWord 0 control a.toNat q.toNat 0))⟩]) := by
  simp [sendValue, ha, askQuantize_ok x s hq, respond_eq_recorded,
    sendFields_of_legal (legalFields_of_codes hcontrol a q)]

theorem updateChannel_of_unknown (hch : ∀ a, lookupChannel ch ≠ .ok a) (s : State) :
    updateChannel ch s = (recorded s [], .error (.core .invalidArgument)) := by
  simp [updateChannel, lookupChannel_of_unknown hch]

theorem updateChannel_of_known (ha : lookupChannel ch = .ok a) (s : State) :
    updateChannel ch s = sendFields 0 1 a.toNat 0 0 s := by
  simp [updateChannel, ha]

theorem sendMasked_of_unknown (opcode : Word) (h : ∃ l ∈ chs, ∀ c, lookupChannel l ≠ .ok c)
    (s : State) :
    sendMasked opcode chs s = (recorded s [], .error (.core .invalidArgument)) := by
  simp [sendMasked, presenceOf, presenceFrom_error chs _ h]

theorem sendMasked_of_mask (opcode : Word) {sel : PresenceVector} {m : ChannelMask}
    (hsel : presenceOf chs = .ok sel) (hm : maskValue sel = .ok m) (s : State) :
    sendMasked opcode chs s = transportWrite (serialize (andComposed opcode m))
      (recorded s [⟨.mask sel, .mask m⟩]) := by
  simp [sendMasked, hsel, askMask_ok sel s hm, respond_eq_recorded]

end Compositions

section PassThroughs

theorem passThrough_sendFields {p c a d f : Int} (h : LegalFields p c a d f) :
    PassThrough (sendFields p c a d f) :=
  .inl ⟨_, _, sendFields_of_legal h⟩

theorem passThrough_sendValue {control : Nat} (hcontrol : control ≤ 15) (ch : String) (x : F64) :
    PassThrough (sendValue control ch x) := by
  by_cases hch : ∃ a, lookupChannel ch = .ok a
  · obtain ⟨a, ha⟩ := hch
    by_cases hx : LegalUnit x
    · exact .inl ⟨_, _, sendValue_of_code hcontrol ha (quantizeValue_of_legal hx)⟩
    · exact .inr ⟨_, _, .inl rfl, sendValue_of_not_legal _ ha hx⟩
  · exact .inr ⟨_, _, .inr rfl, sendValue_of_unknown _ (not_exists.1 hch)⟩

theorem passThrough_updateChannel (ch : String) : PassThrough (updateChannel ch) := by
  by_cases hch : ∃ a, lookupChannel ch = .ok a
  · obtain ⟨a, ha⟩ := hch
    rw [funext (updateChannel_of_known ha)]
    exact passThrough_sendFields (legalFields_updateChannel a)
  · exact .inr ⟨_, _, .inr rfl, updateChannel_of_unknown (not_exists.1 hch)⟩

theorem passThrough_sendMasked (opcode : Word) (chs : List String) :
    PassThrough (sendMasked opcode chs) := by
  by_cases hknown : ∀ l ∈ chs, ∃ c, lookupChannel l = .ok c
  · obtain ⟨sel, m, hsel, hm⟩ := presenceOf_of_known hknown
    exact .inl ⟨_, _, sendMasked_of_mask opcode hsel hm⟩
  · push Not at hknown
    exact .inr ⟨_, _, .inr rfl, sendMasked_of_unknown opcode hknown⟩

theorem passThrough_runFacade (op : FacadeOp) : PassThrough (runFacade op) := by
  cases op with
  | softwareReset => exact passThrough_sendFields ((allFit_iff 0 7 0 0 0).1 rfl)
  | internalReferenceOn => exact passThrough_sendFields ((allFit_iff 0 9 0 0xA000 0).1 rfl)
  | clearAllToZero => exact passThrough_sendFields ((allFit_iff 0 5 0 0 0).1 rfl)
  | clearAllToMid => exact passThrough_sendFields ((allFit_iff 0 5 0 0 1).1 rfl)
  | clearAllToFull => exact passThrough_sendFields ((allFit_iff 0 5 0 0 2).1 rfl)
  | writeToRegister ch x => exact passThrough_sendValue (control := 0) (by decide) ch x
  | writeAndUpdate ch x => exact passThrough_sendValue (control := 3) (by decide) ch x
  | writeAndUpdateAll ch x => exact passThrough_sendValue (control := 2) (by decide) ch x
  | updateChannel ch => exact passThrough_updateChannel ch
  | writeToLdacRegister chs => exact passThrough_sendMasked ldacOpcode chs
  | powerUpDac chs => exact passThrough_sendMasked powerUpOpcode chs

end PassThroughs

section FacadeOperations
variable {op : FacadeOp} {s : State}

/-- An operation that ends as one ENCODE request of legal fields writes the packed word. -/
theorem callWrites_of_sendFields {p c a d f : Int} (hs : s.facade = .initialized)
    (hrun : runFacade op s = sendFields p c a d f s) (h : LegalFields p c a d f) :
    CallWrites (.facade op) s
      [⟨.encode p c a d f, .encoded (packWord p c a d f) (serialize (packWord p c a d f))⟩]
      (serialize (packWord p c a d f)) :=
  callWrites_of_runFacade hs (hrun.trans (sendFields_of_legal h s))

/-- The three value operations are one composition with three controls (43_host_compositions R98 to
R100). -/
theorem runFacade_of_valueOperation {ch : String} {x : F64} {control : Nat}
    (h : (op, control) ∈ [(FacadeOp.writeToRegister ch x, 0), (FacadeOp.writeAndUpdate ch x, 3),
      (FacadeOp.writeAndUpdateAll ch x, 2)]) :
    runFacade op s = sendValue control ch x s ∧ control ≤ 15 := by
  simp only [List.mem_cons, Prod.mk.injEq, List.not_mem_nil, or_false] at h
  obtain ⟨rfl, rfl⟩ | ⟨rfl, rfl⟩ | ⟨rfl, rfl⟩ := h <;> exact ⟨rfl, by decide⟩

end FacadeOperations

end Sys2Proof.Machine

open Sys2Proof.Machine

/-- Settles O44: each operation is `sendFields` of constants, and the packed words are the stated
ones. -/
theorem fixedWordOperationsSendTheirWords : Obligations.FixedWordOperationsSendTheirWords :=
  fun _ hs => ⟨callWrites_of_sendFields hs rfl ((allFit_iff 0 7 0 0 0).1 rfl),
    callWrites_of_sendFields hs rfl ((allFit_iff 0 9 0 0xA000 0).1 rfl),
    callWrites_of_sendFields hs rfl ((allFit_iff 0 5 0 0 0).1 rfl),
    callWrites_of_sendFields hs rfl ((allFit_iff 0 5 0 0 1).1 rfl),
    callWrites_of_sendFields hs rfl ((allFit_iff 0 5 0 0 2).1 rfl)⟩

/-- Settles O45: the clauses are the three ends of `sendValue`. -/
theorem valueOperationsSendTheQuantizedValue :
    Obligations.ValueOperationsSendTheQuantizedValue := by
  intro ch x s op control hs hop
  obtain ⟨hrun, hcontrol⟩ := runFacade_of_valueOperation (s := s) hop
  refine ⟨fun hch => callFails_of_runFacade hs (hrun.trans (sendValue_of_unknown _ hch s)),
    fun a ha hx => callFails_of_runFacade hs (hrun.trans (sendValue_of_not_legal _ ha hx s)),
    fun a ha hx => ?_⟩
  have hq := quantizeValue_of_legal hx
  have hword := packWord_toNat (legalFields_of_codes hcontrol a
    (BitVec.ofInt 16 (f64Floor (quantizeProduct x))))
  exact ⟨_, _, exec_quantize_ok x s hq, by omega,
    callWrites_of_runFacade hs (hrun.trans (sendValue_of_code hcontrol ha hq s))⟩

/-- Settles O46: a known channel leaves `sendFields` with control 1 and the channel's code. -/
theorem updateChannelSendsTheChannelCode : Obligations.UpdateChannelSendsTheChannelCode := by
  intro ch s hs
  refine ⟨fun hch => callFails_of_runFacade hs (updateChannel_of_unknown hch s), fun a ha => ?_⟩
  have hword := packWord_toNat (legalFields_updateChannel a)
  exact ⟨packWord 0 1 a.toNat 0 0, by omega,
    callWrites_of_sendFields hs (updateChannel_of_known ha s) (legalFields_updateChannel a)⟩

/-- Settles O48: a pass-through attempts its one write or ends with a core error before it. -/
theorem oneWritePerSuccessfulOperation : Obligations.OneWritePerSuccessfulOperation := by
  intro op s hs
  obtain ⟨requests, f, hrun⟩ | ⟨requests, e, he, hrun⟩ := passThrough_runFacade op
  · obtain ⟨haccepts, hioError⟩ := callWrites_of_runFacade hs (hrun s)
    obtain h | h := transportAnswer_cases s
    · exact ⟨_, haccepts h, .inl ⟨rfl, rfl, f, rfl⟩⟩
    · exact ⟨_, hioError h, .inr (.inl ⟨rfl, rfl, by simp⟩)⟩
  · exact ⟨_, callFails_of_runFacade hs (hrun s), .inr (.inr ⟨by simpa using he, rfl, by simp⟩)⟩

/-- Settles O49: a pass-through's requests, frame and error are given before the state, and the
states agree on the answer to its one write. -/
theorem facadeOperationsArePassThroughs : Obligations.FacadeOperationsArePassThroughs := by
  intro op s₁ s₂ hs₁ hs₂ hanswer
  obtain ⟨requests, f, hrun⟩ | ⟨requests, e, -, hrun⟩ := passThrough_runFacade op
  · obtain ⟨haccepts₁, hioError₁⟩ := callWrites_of_runFacade hs₁ (hrun s₁)
    obtain ⟨haccepts₂, hioError₂⟩ := callWrites_of_runFacade hs₂ (hrun s₂)
    obtain h | h := transportAnswer_cases s₁
    · exact ⟨requests, [f], 1, .returned, haccepts₁ h, haccepts₂ (hanswer ▸ h)⟩
    · exact ⟨requests, [], 1, .raised .ioError, hioError₁ h, hioError₂ (hanswer ▸ h)⟩
  · exact ⟨requests, [], 0, .raised (.core e), callFails_of_runFacade hs₁ (hrun s₁),
      callFails_of_runFacade hs₂ (hrun s₂)⟩

end

section
/-!
PROOFS. The exceptions family: an error response leaves nothing behind (60_exceptions R115), and the
first error of a composition is the one reported (60_exceptions R114).
-/

namespace Sys2Proof.Machine

section ErrorResponses

/-- The one next state `exec` answers: the instruction's own response and nothing else. -/
theorem exec_next {i : Instr} {s t : State} (h : exec i s = .next t) :
    t = respond i (coreResponse i) s := by
  rw [exec_eq_respond] at h
  cases h
  rfl

/-- Answering touches the record of exchanges only (10_state R15, R16). -/
theorem sameButExchanges_respond (i : Instr) (r : Response) (s : State) :
    SameButExchanges s (respond i r s) := by
  simp [SameButExchanges]

/-- Code 0b00 is OK and stands for no error class (60_exceptions R107). -/
theorem errCode_ne_ok (e : CoreError) : errCode e ≠ 0#2 := by
  cases e <;> decide

end ErrorResponses

section FirstErrors
variable {op : FacadeOp} {s : State}

/-- Each value operation stands with its control in the list of 43_host_compositions R98 to R100. -/
theorem valueOperation_control {ch : String} {x : F64}
    (h : op ∈ [FacadeOp.writeToRegister ch x, .writeAndUpdate ch x, .writeAndUpdateAll ch x]) :
    ∃ control, (op, control) ∈ [(FacadeOp.writeToRegister ch x, 0),
      (FacadeOp.writeAndUpdate ch x, 3), (FacadeOp.writeAndUpdateAll ch x, 2)] := by
  simp only [List.mem_cons, List.not_mem_nil, or_false] at h
  obtain rfl | rfl | rfl := h
  · exact ⟨0, by simp⟩
  · exact ⟨3, by simp⟩
  · exact ⟨2, by simp⟩

/-- The two AND-composed operations are one composition with two opcodes (43_host_compositions R102,
R103). -/
theorem runFacade_of_maskedOperation {chs : List String}
    (h : op ∈ [FacadeOp.writeToLdacRegister chs, .powerUpDac chs]) :
    ∃ opcode, runFacade op s = sendMasked opcode chs s := by
  simp only [List.mem_cons, List.not_mem_nil, or_false] at h
  obtain rfl | rfl := h
  · exact ⟨ldacOpcode, rfl⟩
  · exact ⟨powerUpOpcode, rfl⟩

end FirstErrors

end Sys2Proof.Machine

open Sys2Proof.Machine

/-- Settles O3: the response `exec` gave is the error, and `raiseError` is answering with it. -/
theorem errorHasNoEffectButItsResponse : Obligations.ErrorHasNoEffectButItsResponse := by
  intro i s t e ht he
  obtain rfl := exec_next ht
  rw [currentResponse_respond, Option.some.injEq] at he
  rw [he]
  exact ⟨(raiseError_eq_respond e i s).symm, sameButExchanges_respond i _ s, rfl, errCode_ne_ok e⟩

/-- Settles O50: the value operations and `update_channel` by the statements on what they send, the
AND-composed operations by the two ends of `sendMasked`. -/
theorem firstErrorOfACompositionIsReported : Obligations.FirstErrorOfACompositionIsReported := by
  intro s hs
  refine ⟨fun ch x op hop => ?_, fun ch => ?_, fun chs op hop => ?_⟩
  · obtain ⟨control, hcontrol⟩ := valueOperation_control hop
    obtain ⟨hunknown, hrange, hsends⟩ :=
      valueOperationsSendTheQuantizedValue ch x s op control hs hcontrol
    refine ⟨hunknown, fun ⟨a, ha⟩ hx => hrange a ha hx, fun ⟨a, ha⟩ hx hfails => ?_⟩
    obtain ⟨q, w, -, -, -, hioError⟩ := hsends a ha hx
    exact ⟨q, _, w, hioError hfails⟩
  · obtain ⟨hunknown, hsends⟩ := updateChannelSendsTheChannelCode ch s hs
    refine ⟨hunknown, fun ⟨a, ha⟩ hfails => ?_⟩
    obtain ⟨w, -, -, hioError⟩ := hsends a ha
    exact ⟨_, w, hioError hfails⟩
  · obtain ⟨opcode, hrun⟩ := runFacade_of_maskedOperation (s := s) hop
    refine ⟨fun hl => callFails_of_runFacade hs (hrun.trans (sendMasked_of_unknown opcode hl s)),
      fun hknown hfails => ?_⟩
    obtain ⟨sel, m, hsel, hm⟩ := presenceOf_of_known hknown
    obtain ⟨-, hioError⟩ :=
      callWrites_of_runFacade hs (hrun.trans (sendMasked_of_mask opcode hsel hm s))
    exact ⟨sel, m, hioError hfails⟩

end

section
/-!
PROOFS. The reset family: the construction of the Facade (70_reset_and_hazards R127), what is
refused before it (R129), and that nothing else changes `facade_state` (R128).
-/

namespace Sys2Proof.Machine

section Construction

/-- `software_reset()` comes to one write of SOFTWARE_RESET (43_host_compositions R93). -/
theorem softwareReset_eq (s : State) :
    softwareReset s = transportWrite softwareResetFrame (recorded s [softwareResetExchange]) :=
  sendFields_of_legal ((allFit_iff 0 7 0 0 0).1 rfl) s

/-- `internal_reference_on()` comes to one write of INTERNAL_REFERENCE_ON (43_host_compositions
R94). -/
theorem internalReferenceOn_eq (s : State) :
    internalReferenceOn s
      = transportWrite internalReferenceFrame (recorded s [internalReferenceExchange]) :=
  sendFields_of_legal ((allFit_iff 0 9 0 0xA000 0).1 rfl) s

/-- One attempted write uses up one answer, so the write after it gets the second coming one. -/
theorem transportAnswer_of_one_attempt {s t : State}
    (hplan : t.transportPlan = s.transportPlan.tail)
    (hattempts : t.writeAttempts = s.writeAttempts + 1) :
    transportAnswer t = comingAnswer 1 s := by
  rw [transportAnswer_eq_comingAnswer]
  simp [comingAnswer, hplan, hattempts]

/-- With both writes accepted the construction reaches its end (70_reset_and_hazards R127). -/
theorem constructFacade_of_accepts {s : State} (hfirst : comingAnswer 0 s = .accepts)
    (hsecond : comingAnswer 1 s = .accepts) :
    finish (constructFacade s)
      = { afterCall s [softwareResetExchange, internalReferenceExchange]
          [softwareResetFrame, internalReferenceFrame] 2 .returned with
          facade := .initialized } := by
  have hreset : transportAnswer
      (recorded { s with facade := .uninitialized } [softwareResetExchange]) = .accepts :=
    (transportAnswer_eq_comingAnswer s).trans hfirst
  have hreference {t : State} (hplan : t.transportPlan = s.transportPlan.tail)
      (hattempts : t.writeAttempts = s.writeAttempts + 1) : transportAnswer t = .accepts :=
    (transportAnswer_of_one_attempt hplan hattempts).trans hsecond
  rw [constructFacade, softwareReset_eq, transportWrite_accepts _ _ hreset, thenDo_ok,
    internalReferenceOn_eq, transportWrite_accepts _ _ (hreference rfl rfl), thenDo_ok]
  simp [finish, afterCall, recorded, ← List.drop_one]

end Construction

section UninitializedRefusals
variable {s : State}

/-- Of the calls, only a Facade operation is refused for an Uninitialized Facade. -/
theorem runCall_refused_facadeUninitialized {c : HostCall}
    (h : runCall c s = .refused .facadeUninitialized) :
    s.facade = .uninitialized ∧ ∃ op, c = .facade op := by
  cases c with
  | request line => obtain ⟨port, hx⟩ | ⟨t, hx⟩ := runLine_refused h <;> cases hx
  | lookupCommand name => cases h
  | lookupChannel label => cases h
  | write arg =>
    obtain ⟨t, -, hx⟩ := runWrite_refused h
    cases hx
  | construct => cases h
  | facade op => exact ⟨(runFacadeCall_refused h).1, op, rfl⟩

theorem runCall_facade_of_uninitialized (hs : s.facade = .uninitialized) (op : FacadeOp) :
    runCall (.facade op) s = .refused .facadeUninitialized := by
  simp [runCall, runFacadeCall, hs]

/-- The step of a single call. -/
theorem step_of_call {c : HostCall} (h : nextHostStep s = some (.call c)) :
    step s = runCall c (advance s) := by
  simp [step, h, runHostStep]

end UninitializedRefusals

section FacadeState
variable {s t : State}

@[simp] theorem finish_facade (r : HostResult Unit) : (finish r).facade = r.1.facade := by
  obtain ⟨s, _ | _⟩ := r <;> rfl

@[simp] theorem finishLookup_facade (r : Except CoreError (BitVec 4)) (s : State) :
    (finishLookup r s).facade = s.facade := by
  cases r <;> rfl

@[simp] theorem transportWrite_facade (f : Frame) (s : State) :
    (transportWrite f s).1.facade = s.facade := by
  obtain h | h := transportAnswer_cases s
  · rw [transportWrite_accepts f s h]
  · rw [transportWrite_ioError f s h]

@[simp] theorem recorded_facade (s : State) (requests : List Exchange) :
    (recorded s requests).facade = s.facade := rfl

/-- A public operation leaves `facade_state` as it is (43_host_compositions R89). -/
theorem runFacade_facade (op : FacadeOp) (s : State) : (runFacade op s).1.facade = s.facade := by
  obtain ⟨requests, f, hrun⟩ | ⟨requests, e, -, hrun⟩ := passThrough_runFacade op
  · simp [hrun]
  · simp [hrun]

/-- A line of a program answers a request or reports an error of the host. -/
theorem runLine_facade {line : RequestLine} (h : runLine line s = .next t) :
    t.facade = s.facade := by
  unfold runLine at h
  split at h
  case h_1 r hr =>
    obtain ⟨i, -, rfl⟩ := runRequest_next h
    exact respond_facade i _ s
  case h_2 e he => cases h; rfl
  case h_3 n hn => cases h

theorem runWrite_facade {arg : WriteArgument} (h : runWrite arg s = .next t) :
    t.facade = s.facade := by
  unfold runWrite at h
  split at h
  case h_1 f hf => cases h; simp
  case h_2 n hn => cases h

theorem runFacadeCall_facade {op : FacadeOp} (h : runFacadeCall op s = .next t) :
    t.facade = s.facade := by
  unfold runFacadeCall at h
  split at h
  case h_1 hs => cases h; simp [runFacade_facade]
  case h_2 hs => cases h

/-- Every call but a construction leaves `facade_state` as it is (70_reset_and_hazards R128). -/
theorem runCall_facade_eq_or_construct {c : HostCall} (h : runCall c s = .next t) :
    t.facade = s.facade ∨ c = .construct := by
  cases c with
  | request line => exact .inl (runLine_facade h)
  | lookupCommand name => cases h; exact .inl (finishLookup_facade _ s)
  | lookupChannel label => cases h; exact .inl (finishLookup_facade _ s)
  | write arg => exact .inl (runWrite_facade h)
  | construct => exact .inr rfl
  | facade op => exact .inl (runFacadeCall_facade h)

end FacadeState

end Sys2Proof.Machine

open Sys2Proof.Machine

/-- Settles O51: a construction is its two compositions, each come to one write, and the Transport
accepts both. -/
theorem constructionSendsBothWords : Obligations.ConstructionSendsBothWords :=
  fun _ hfirst hsecond =>
    congrArg Host.Outcome.next (constructFacade_of_accepts hfirst hsecond)

/-- Settles O53: of the three kinds of step in `step_cases` only a single call has this cause of
refusal, and moving past the entry leaves `facade_state`. -/
theorem facadeRefusesUntilInitialized : Obligations.FacadeRefusesUntilInitialized := by
  intro s
  constructor
  · intro h
    obtain ⟨-, hs⟩ | ⟨c, d, -, hs⟩ | ⟨c, hn, hs⟩ := step_cases s
    · cases hs.symm.trans h
    · cases hs.symm.trans h
    · obtain ⟨hfacade, op, rfl⟩ := runCall_refused_facadeUninitialized (hs.symm.trans h)
      exact ⟨hfacade, op, hn⟩
  · rintro ⟨hfacade, op, hn⟩
    rw [step_of_call hn, runCall_facade_of_uninitialized ((advance_facade s).trans hfacade)]

/-- Settles O54: a step with a next state is a single call, and every call but a construction leaves
`facade_state`. -/
theorem onlyConstructionChangesFacadeState : Obligations.OnlyConstructionChangesFacadeState := by
  intro s t ht hchanged
  obtain ⟨-, hs⟩ | ⟨c, d, -, hs⟩ | ⟨c, hn, hs⟩ := step_cases s
  · cases hs.symm.trans ht
  · cases hs.symm.trans ht
  · obtain hsame | rfl := runCall_facade_eq_or_construct (hs.symm.trans ht)
    · exact absurd hsame hchanged
    · exact hn

end

section
/-!
PROOFS. The request ports: decode of encode (30_encoding section 1), `op` alone selecting the
operation (R48), and the host's obligation on ENCODE's operands (40_word_encoder R65).
-/

namespace Sys2Proof

section Decoding
variable {r q : Request} {i : Instr}

/-- The request that presents a well-formed instruction is well formed and decodes to it. -/
theorem decodeOfRequest (i : Instr) : Laws.DecodeOfRequest.Statement i := by
  cases i with
  | encode pfx control address data feature =>
    exact Laws.DecodeOfRequest.encode pfx control address data feature
  | quantize v => exact Laws.DecodeOfRequest.quantize v
  | mask sel => exact Laws.DecodeOfRequest.mask sel
  | reserved => exact Laws.DecodeOfRequest.reserved

theorem decodeBits_encode (h : i.wellFormed = true) : decodeBits (encode i) = .ok i := by
  obtain ⟨hports, hdecode⟩ := decodeOfRequest i h
  rw [decodeBits, encode, ofBits_toBits hports, hdecode]

/-- A table word that gives every port bit is the port bits themselves. -/
theorem tableBits_toNat (b : BitVec Config.requestBits) : tableBits 242 b.toNat = b := by
  rw [tableBits, Nat.mod_eq_of_lt b.isLt, BitVec.ofNat_toNat, BitVec.setWidth_eq]

theorem decodeTableWord_of_decodeBits {nbits w : Nat} (h : decodeBits (tableBits nbits w) = .ok i) :
    decodeTableWord nbits w = some i := by
  simp [decodeTableWord, h]

theorem decode_of_op_encode (h : r.op = 0#2) : decode r = decodeEncode r := by
  simp [decode, h]

theorem decode_of_op_quantize (h : r.op = 1#2) : decode r = .ok (.quantize r.v) := by
  simp [decode, h]

theorem decode_of_op_mask (h : r.op = 2#2) : decode r = .ok (.mask r.sel) := by
  simp [decode, h]

theorem decode_of_op_reserved (h : r.op = 3#2) : decode r = .ok .reserved := by
  simp [decode, h]

/-- `op` has four values. -/
theorem op_cases (op : BitVec 2) : op = 0#2 ∨ op = 1#2 ∨ op = 2#2 ∨ op = 3#2 := by
  bv_omega

/-- Any port bits decode to a well-formed instruction of the operation that `op` selects. -/
theorem decode_of_wellFormed (h : r.wellFormed = true) :
    ∃ i, decode r = .ok i ∧ i.wellFormed = true ∧
      (r.op = 0b00#2 ↔ ∃ p c a d f, i = .encode p c a d f) ∧
      (r.op = 0b01#2 ↔ ∃ v, i = .quantize v) ∧
      (r.op = 0b10#2 ↔ ∃ sel, i = .mask sel) ∧
      (r.op = 0b11#2 ↔ i = .reserved) := by
  obtain hop | hop | hop | hop := op_cases r.op
  · exact ⟨_, (decode_of_op_encode hop).trans (decodeEncode_ok h), h, by simp [hop]⟩
  · exact ⟨_, decode_of_op_quantize hop, rfl, by simp [hop]⟩
  · exact ⟨_, decode_of_op_mask hop, rfl, by simp [hop]⟩
  · exact ⟨_, decode_of_op_reserved hop, rfl, by simp [hop]⟩

/-- Decoding reads `op` and the operand group it selects, and no other port (10_state R21). -/
theorem decode_congr (hop : r.op = q.op)
    (hencode : r.op = 0#2 → decodeEncode r = decodeEncode q)
    (hquantize : r.op = 1#2 → r.v = q.v) (hmask : r.op = 2#2 → r.sel = q.sel) :
    decode r = decode q := by
  obtain h | h | h | h := op_cases r.op
  · rw [decode_of_op_encode h, decode_of_op_encode (hop ▸ h), hencode h]
  · rw [decode_of_op_quantize h, decode_of_op_quantize (hop ▸ h), hquantize h]
  · rw [decode_of_op_mask h, decode_of_op_mask (hop ▸ h), hmask h]
  · rw [decode_of_op_reserved h, decode_of_op_reserved (hop ▸ h)]

end Decoding

section Ports
variable {r : Request}

/-- ENCODE's operands with their ports, in the order of 10_state R22. -/
def encodePorts (r : Request) : List (EncodePort × Int) :=
  [(.pfx, r.pfx), (.control, r.control), (.address, r.address), (.data, r.data),
    (.feature, r.feature)]

/-- The ports are checked in their order, and the first that fails is named (40_word_encoder
R65). -/
theorem decodeEncode_eq_find (r : Request) :
    decodeEncode r = match (encodePorts r).find? fun x => !fitsPort x.2 with
      | some x => .error (.operandBeyondPort x.1)
      | none => .ok (.encode r.pfx r.control r.address r.data r.feature) := by
  unfold decodeEncode
  split_ifs <;> simp_all [encodePorts]

theorem fitsPort_iff_pow (x : Int) : fitsPort x = true ↔ -2 ^ 31 ≤ x ∧ x ≤ 2 ^ 31 - 1 := by
  rw [fitsPort_iff]
  norm_num

theorem decodeEncode_of_all_fit (h : ∀ x ∈ encodePorts r, fitsPort x.2 = true) :
    decodeEncode r = .ok (.encode r.pfx r.control r.address r.data r.feature) := by
  have hnone : ((encodePorts r).find? fun x => !fitsPort x.2) = none :=
    List.find?_eq_none.2 fun x hx => by simp [h x hx]
  rw [decodeEncode_eq_find, hnone]

theorem decodeEncode_of_first_unfit {before after : List (EncodePort × Int)} {port : EncodePort}
    {x : Int} (hports : encodePorts r = before ++ (port, x) :: after)
    (hbefore : ∀ y ∈ before, fitsPort y.2 = true) (hx : fitsPort x = false) :
    decodeEncode r = .error (.operandBeyondPort port) := by
  have hfirst : ((encodePorts r).find? fun x => !fitsPort x.2) = some (port, x) := by
    refine List.find?_eq_some_iff_append.2 ⟨by simp [hx], before, after, hports, fun y hy => ?_⟩
    simp [hbefore y hy]
  rw [decodeEncode_eq_find, hfirst]

end Ports

end Sys2Proof

open Sys2Proof Sys2Proof.Machine

/-- Settles O35: the ports laid out are read back, and a request that presents an instruction
decodes to it. -/
theorem decodeOfEncodeIsTheInstruction : Obligations.DecodeOfEncodeIsTheInstruction := by
  intro i h
  refine ⟨decodeBits_encode h, decodeTableWord_of_decodeBits ?_⟩
  rw [tableBits_toNat, decodeBits_encode h]

/-- Settles O34: what stands on the ports of a bit string fits them, so it decodes, whichever of its
four values `op` has. -/
theorem selectDecidesTheOperation : Obligations.SelectDecidesTheOperation :=
  fun b => decode_of_wellFormed (ofBits_wellFormed b)

/-- Settles O33: the list of the statement is `encodePorts`, and the decoder's checks are the search
for its first operand out of range. -/
theorem operandBeyondItsPortIsRefused : Obligations.OperandBeyondItsPortIsRefused := by
  rintro r s operands hop rfl
  refine ⟨fun hfit => ?_, fun before port x after hports hbefore hx => ?_⟩
  · have hdecode := decodeEncode_of_all_fit fun x hx => (fitsPort_iff_pow x.2).2 (hfit x hx)
    rw [runRequest, decode_of_op_encode hop, hdecode]
  · have hdecode := decodeEncode_of_first_unfit hports
      (fun y hy => (fitsPort_iff_pow y.2).2 (hbefore y hy))
      (Bool.eq_false_iff.2 fun h => hx ((fitsPort_iff_pow x).1 h))
    rw [runRequest, decode_of_op_encode hop, hdecode]

/-- Settles O32: the two requests decode to the same instruction. -/
theorem unselectedOperandsAreIgnored : Obligations.UnselectedOperandsAreIgnored := by
  intro r q s hop hencode hquantize hmask
  have hdecode : decode r = decode q := by
    refine decode_congr hop (fun h => ?_) hquantize hmask
    obtain ⟨hp, hc, ha, hd, hf⟩ := hencode h
    simp [decodeEncode, hp, hc, ha, hd, hf]
  rw [runRequest, hdecode, ← runRequest]

/-- Settles O36: the decoder evaluated on the five bit strings. -/
theorem opcodeTableWordsDecode : Obligations.OpcodeTableWordsDecode :=
  ⟨by decide, by decide, by decide, by decide, by decide⟩

end

section
/-!
PROOFS. The core alone: what a request changes (10_state R15, R16), what each operation can be
answered with (60_exceptions R107, R113), and runs of requests (R116).
-/

namespace Sys2Proof.Machine

section Responses
variable {i : Instr} {r : Response} {e : CoreError}

/-- An instruction is answered with its own response and no other. -/
theorem answers_iff_eq_coreResponse (i : Instr) (s : State) (r : Response) :
    Answers i s r ↔ r = coreResponse i := by
  rw [answers_iff, exec_eq_respond]
  simp [respond, eq_comm]

/-- The one error class an operation can report (60_exceptions R113). -/
def errorClass : Instr → CoreError
  | .encode .. => .rangeError
  | .quantize _ => .rangeError
  | .mask _ => .invalidArgument
  | .reserved => .illegalOperation

/-- What a response can be: the selected operation's result, or its own error class. -/
theorem coreResponse_cases (i : Instr) :
    (∃ p c a d f w, i = .encode p c a d f ∧ coreResponse i = .encoded w (serialize w)) ∨
    (∃ v c, i = .quantize v ∧ coreResponse i = .code c) ∨
    (∃ sel m, i = .mask sel ∧ coreResponse i = .mask m) ∨
    coreResponse i = .error (errorClass i) := by
  cases i with
  | encode p c a d f =>
    cases h : encodeFields p c a d f with
    | ok w => exact .inl ⟨p, c, a, d, f, w, rfl, by simp [coreResponse, h]⟩
    | error e =>
      obtain rfl := encodeFields_error h
      exact .inr (.inr (.inr (by simp [coreResponse, h, errorClass])))
  | quantize v =>
    cases h : quantizeValue v with
    | ok c => exact .inr (.inl ⟨v, c, rfl, by simp [coreResponse, h]⟩)
    | error e =>
      obtain rfl := quantizeValue_error h
      exact .inr (.inr (.inr (by simp [coreResponse, h, errorClass])))
  | mask sel =>
    cases h : maskValue sel with
    | ok m => exact .inr (.inr (.inl ⟨sel, m, rfl, by simp [coreResponse, h]⟩))
    | error e =>
      obtain rfl := maskValue_error h
      exact .inr (.inr (.inr (by simp [coreResponse, h, errorClass])))
  | reserved => exact .inr (.inr (.inr rfl))

theorem eq_errorClass_of_coreResponse (h : coreResponse i = .error e) : e = errorClass i := by
  obtain ⟨p, c, a, d, f, w, -, hr⟩ | ⟨v, c, -, hr⟩ | ⟨sel, m, -, hr⟩ | hr := coreResponse_cases i
  · cases hr.symm.trans h
  · cases hr.symm.trans h
  · cases hr.symm.trans h
  · cases hr.symm.trans h
    rfl

end Responses

section Requests
variable {r : Request} {i : Instr}

theorem errorClass_of_decodeEncode (h : decodeEncode r = .ok i) : errorClass i = .rangeError := by
  unfold decodeEncode at h
  split_ifs at h
  cases h
  rfl

/-- `op` alone settles which error a decoded request can report. -/
theorem errorClass_of_decode (h : decode r = .ok i) :
    (r.op = 0b11#2 → errorClass i = .illegalOperation) ∧
    (r.op = 0b00#2 ∨ r.op = 0b01#2 → errorClass i = .rangeError) ∧
    (r.op = 0b10#2 → errorClass i = .invalidArgument) := by
  obtain hop | hop | hop | hop := op_cases r.op
  · rw [decode_of_op_encode hop] at h
    simp [hop, errorClass_of_decodeEncode h]
  · cases (decode_of_op_quantize hop).symm.trans h
    simp [hop, errorClass]
  · cases (decode_of_op_mask hop).symm.trans h
    simp [hop, errorClass]
  · cases (decode_of_op_reserved hop).symm.trans h
    simp [hop, errorClass]

end Requests

/-- The exchange that a request makes in any state. -/
def exchangeOf (i : Instr) : Exchange := ⟨i, coreResponse i⟩

/-- A run of requests records each one's own exchange, in order. -/
theorem execAll_eq_recorded (is : List Instr) (s : State) :
    execAll is s = .next (recorded s (is.map exchangeOf)) := by
  induction is generalizing s with
  | nil => simp [execAll]
  | cons i rest ih =>
    simp only [execAll, exec_eq_respond, ih, respond_eq_recorded, recorded_recorded]
    rfl

end Sys2Proof.Machine

open Sys2Proof Sys2Proof.Machine

/-- Settles O2: the next state is the old one with the instruction's own exchange. -/
theorem requestChangesOnlyTheRecord : Obligations.RequestChangesOnlyTheRecord := by
  intro i s t ht
  obtain rfl := exec_next ht
  exact ⟨sameButExchanges_respond i _ s, coreResponse i, respond_exchanges i _ s⟩

/-- Settles O4: an error response is its instruction's `errorClass`. -/
theorem eachOperationReportsItsOwnErrorClass :
    Obligations.EachOperationReportsItsOwnErrorClass := by
  intro r s t e ht he
  obtain ⟨i, hdecode, rfl⟩ := runRequest_next ht
  rw [currentResponse_respond, Option.some.injEq] at he
  rw [eq_errorClass_of_coreResponse he]
  exact errorClass_of_decode hdecode

/-- Settles O5: of the four kinds of response only an error has a code other than OK. -/
theorem statusTellsTheDefinedResult : Obligations.StatusTellsTheDefinedResult := by
  refine ⟨rfl, rfl, rfl, fun i s r h => ?_⟩
  rw [answers_iff_eq_coreResponse] at h
  subst h
  obtain ⟨p, c, a, d, f, w, hi, hr⟩ | ⟨v, c, hi, hr⟩ | ⟨sel, m, hi, hr⟩ | hr := coreResponse_cases i
  · exact ⟨fun _ => .inl ⟨p, c, a, d, f, w, hi, hr⟩, fun h => absurd (congrArg responseErr hr) h⟩
  · exact ⟨fun _ => .inr (.inl ⟨v, c, hi, hr⟩), fun h => absurd (congrArg responseErr hr) h⟩
  · exact ⟨fun _ => .inr (.inr ⟨sel, m, hi, hr⟩), fun h => absurd (congrArg responseErr hr) h⟩
  · exact ⟨fun h => absurd ((congrArg responseErr hr).symm.trans h) (errCode_ne_ok _),
      fun _ => ⟨_, hr, congrArg responseErr hr⟩⟩

/-- Settles O6: the exchanges are each instruction's own, which `exec` makes in any state. -/
theorem runOfRequestsAnswersEachAlone : Obligations.RunOfRequestsAnswersEachAlone := by
  refine fun is s => ⟨is.map exchangeOf, execAll_eq_recorded is s, ?_, fun e he s₀ => ?_⟩
  · rw [List.map_map]
    exact List.map_id is
  · obtain ⟨i, -, rfl⟩ := List.mem_map.1 he
    exact answers_coreResponse i s₀

end

section
/-!
PROOFS. The step: it runs the next host call (10_state R17), only adds to the history (R30), fails a
construction as 70_reset_and_hazards R130 says, and keeps the invariant.
-/

namespace Sys2Proof.Machine

section Steps
variable {s t : State}

/-- A step with a next state is a single call. -/
theorem step_next (h : step s = .next t) :
    ∃ c, nextHostStep s = some (.call c) ∧ runCall c (advance s) = .next t := by
  obtain ⟨-, hs⟩ | ⟨c, d, -, hs⟩ | ⟨c, hn, hs⟩ := step_cases s
  · cases hs.symm.trans h
  · cases hs.symm.trans h
  · exact ⟨c, hn, hs.symm.trans h⟩

/-- There is a next entry exactly while the position is an index of the program. -/
theorem nextHostStep_eq_none_iff : nextHostStep s = none ↔ s.program.length ≤ s.position :=
  List.getElem?_eq_none_iff

/-- A line that presents a request is that request. -/
theorem runCall_of_present {line : RequestLine} {r : Request} (h : present line s = .request r) :
    runCall (.request line) s = runRequest r s := by
  simp [runCall, runLine, h]

theorem runCall_of_decode {line : RequestLine} {r : Request} {i : Instr}
    (hpresent : present line s = .request r) (hdecode : decode r = .ok i) :
    runCall (.request line) s = exec i s := by
  rw [runCall_of_present hpresent, runRequest, hdecode]

theorem decodeBits_of_decodeTableWord {nbits w : Nat} {i : Instr}
    (h : decodeTableWord nbits w = some i) : decodeBits (tableBits nbits w) = .ok i := by
  unfold decodeTableWord at h
  split at h
  case h_1 j hj => cases h; exact hj
  case h_2 e he => cases h

/-- The request put in place by `withFetchWord` is the next entry, also at the end of the list. -/
theorem nextHostStep_withFetchWord (s : State) (nbits w : Nat) :
    nextHostStep (s.withFetchWord nbits w)
      = some (.call (.request (.ports (Request.ofBits (tableBits nbits w))))) := by
  simp only [nextHostStep, State.withFetchWord]
  rw [List.getElem?_append_right (by simp), List.length_take, Nat.sub_self]
  rfl

theorem runRequest_ne_fault (r : Request) (x : Fault) : runRequest r s ≠ .fault x := by
  unfold runRequest
  split
  case h_1 i hi => simp [exec_eq_respond]
  case h_2 port hport => simp

/-- No call faults: a fault is the end of the host's list (log 3). -/
theorem runCall_ne_fault (c : HostCall) {x : Fault} : runCall c s ≠ .fault x := by
  cases c with
  | request line =>
    cases hpresent : present line s with
    | request r => exact runCall_of_present hpresent ▸ runRequest_ne_fault r x
    | raised e => simp [runCall, runLine, hpresent]
    | undefinedResult u => simp [runCall, runLine, hpresent]
  | lookupCommand name => simp [runCall]
  | lookupChannel label => simp [runCall]
  | write arg => cases hf : writeFrame arg s <;> simp [runCall, runWrite, hf]
  | construct => simp [runCall]
  | facade op => cases hs : s.facade <;> simp [runCall, runFacadeCall, hs]

end Steps

section History

/-- A call that went from `s` to `t` recorded `es`, logged `frames`, attempted `attempts` writes,
and left the program and the position. -/
structure Extends (s t : State) (es : List Exchange) (frames : List Frame) (attempts : Nat) :
    Prop where
  program : t.program = s.program
  position : t.position = s.position
  exchanges : t.exchanges = s.exchanges ++ es
  transportLog : t.transportLog = s.transportLog ++ frames
  writeAttempts : t.writeAttempts = s.writeAttempts + attempts

variable {s t : State}

theorem extends_afterCall (s : State) (es : List Exchange) (frames : List Frame) (attempts : Nat)
    (report : Report) : Extends s (afterCall s es frames attempts report) es frames attempts :=
  ⟨rfl, rfl, rfl, rfl, rfl⟩

/-- A call that leaves the Facade makes at most one write. -/
def OneWriteCall (s t : State) : Prop :=
  ∃ es frames attempts, Extends s t es frames attempts ∧ frames.length ≤ 1 ∧ attempts ≤ 1

theorem oneWriteCall_of_callWrites {c : HostCall} {es : List Exchange} {f : Frame}
    (hwrites : CallWrites c s es f) (h : runCall c s = .next t) : OneWriteCall s t := by
  obtain ⟨haccepts, hioError⟩ := hwrites
  obtain hanswer | hanswer := transportAnswer_cases s
  · cases (haccepts hanswer).symm.trans h
    exact ⟨es, [f], 1, extends_afterCall s _ _ _ _, le_rfl, le_rfl⟩
  · cases (hioError hanswer).symm.trans h
    exact ⟨es, [], 1, extends_afterCall s _ _ _ _, Nat.zero_le 1, le_rfl⟩

theorem runCall_write_of_frame {arg : WriteArgument} {f : Frame} (h : writeFrame arg s = .ok f) :
    runCall (.write arg) s = .next (finish (transportWrite f s)) := by
  simp [runCall, runWrite, h]

/-- A write whose argument denotes a frame completes with that one write. -/
theorem callWrites_of_writeFrame {arg : WriteArgument} {f : Frame} (h : writeFrame arg s = .ok f) :
    CallWrites (.write arg) s [] f := by
  rw [CallWrites, runCall_write_of_frame h]
  exact ⟨fun hanswer => congrArg _ (finish_transportWrite_accepts f s hanswer),
    fun hanswer => congrArg _ (finish_transportWrite_ioError f s hanswer)⟩

theorem runCall_write_of_undefined {arg : WriteArgument} {u : Nat}
    (h : writeFrame arg s = .error u) :
    runCall (.write arg) s = .refused (.undefinedResult u) := by
  simp [runCall, runWrite, h]

/-- A line with a next state has been answered, or its host has raised an error before any
request. -/
theorem runLine_next {line : RequestLine} (h : runLine line s = .next t) :
    (∃ i, t = respond i (coreResponse i) s) ∨
    (∃ e, t = { s with report := some (.raised (.core e)) }) := by
  unfold runLine at h
  split at h
  case h_1 r hr =>
    obtain ⟨i, -, rfl⟩ := runRequest_next h
    exact .inl ⟨i, rfl⟩
  case h_2 e he => cases h; exact .inr ⟨e, rfl⟩
  case h_3 u hu => cases h

theorem oneWriteCall_of_exchanges {es : List Exchange} (h : Extends s t es [] 0) :
    OneWriteCall s t :=
  ⟨es, [], 0, h, Nat.zero_le 1, Nat.zero_le 1⟩

theorem extends_finishLookup (r : Except CoreError (BitVec 4)) (s : State) :
    Extends s (finishLookup r s) [] [] 0 := by
  cases r <;> constructor <;> simp [finishLookup]

theorem oneWriteCall_of_facade {op : FacadeOp} (h : runCall (.facade op) s = .next t) :
    OneWriteCall s t := by
  cases hs : s.facade with
  | uninitialized => cases (runCall_facade_of_uninitialized hs op).symm.trans h
  | initialized =>
    obtain ⟨requests, f, hrun⟩ | ⟨requests, e, -, hrun⟩ := passThrough_runFacade op
    · exact oneWriteCall_of_callWrites (callWrites_of_runFacade hs (hrun s)) h
    · cases (callFails_of_runFacade hs (hrun s)).symm.trans h
      exact oneWriteCall_of_exchanges (extends_afterCall s requests [] 0 _)

/-- Every call but a construction makes at most one write. -/
theorem oneWriteCall_or_construct {c : HostCall} (h : runCall c s = .next t) :
    OneWriteCall s t ∨ c = .construct := by
  cases c with
  | request line =>
    obtain ⟨i, rfl⟩ | ⟨e, rfl⟩ := runLine_next h
    · exact .inl (oneWriteCall_of_exchanges ⟨rfl, rfl, rfl, by simp, rfl⟩)
    · exact .inl (oneWriteCall_of_exchanges (es := []) ⟨rfl, rfl, by simp, by simp, rfl⟩)
  | lookupCommand name =>
    cases h
    exact .inl (oneWriteCall_of_exchanges (extends_finishLookup _ s))
  | lookupChannel label =>
    cases h
    exact .inl (oneWriteCall_of_exchanges (extends_finishLookup _ s))
  | write arg =>
    cases hf : writeFrame arg s with
    | ok f => exact .inl (oneWriteCall_of_callWrites (callWrites_of_writeFrame hf) h)
    | error u => cases (runCall_write_of_undefined hf).symm.trans h
  | construct => exact .inr rfl
  | facade op => exact .inl (oneWriteCall_of_facade h)

end History

section Construction
variable {s : State}

/-- The second write is not issued after the first has raised IOError (70_reset_and_hazards
R130). -/
theorem constructFacade_of_first_ioError (hfirst : comingAnswer 0 s = .ioError) :
    finish (constructFacade s)
      = { afterCall s [softwareResetExchange] [] 1 (.raised .ioError) with
          facade := .uninitialized } := by
  have hreset : transportAnswer
      (recorded { s with facade := .uninitialized } [softwareResetExchange]) = .ioError :=
    (transportAnswer_eq_comingAnswer s).trans hfirst
  rw [constructFacade, softwareReset_eq, transportWrite_ioError _ _ hreset, thenDo_error]
  simp [finish, afterCall, recorded]

/-- The first write stays logged when the second raises IOError (70_reset_and_hazards R130). -/
theorem constructFacade_of_second_ioError (hfirst : comingAnswer 0 s = .accepts)
    (hsecond : comingAnswer 1 s = .ioError) :
    finish (constructFacade s)
      = { afterCall s [softwareResetExchange, internalReferenceExchange] [softwareResetFrame] 2
          (.raised .ioError) with facade := .uninitialized } := by
  have hreset : transportAnswer
      (recorded { s with facade := .uninitialized } [softwareResetExchange]) = .accepts :=
    (transportAnswer_eq_comingAnswer s).trans hfirst
  have hreference {t : State} (hplan : t.transportPlan = s.transportPlan.tail)
      (hattempts : t.writeAttempts = s.writeAttempts + 1) : transportAnswer t = .ioError :=
    (transportAnswer_of_one_attempt hplan hattempts).trans hsecond
  rw [constructFacade, softwareReset_eq, transportWrite_accepts _ _ hreset, thenDo_ok,
    internalReferenceOn_eq, transportWrite_ioError _ _ (hreference rfl rfl), thenDo_error]
  simp [finish, afterCall, recorded, ← List.drop_one]

theorem comingAnswer_cases (k : Nat) (s : State) :
    comingAnswer k s = .accepts ∨ comingAnswer k s = .ioError := by
  cases comingAnswer k s <;> simp

/-- A construction makes at most two writes; it ends Initialized when both were accepted, and
Uninitialized otherwise. -/
theorem construct_cases (s : State) :
    ∃ es frames attempts, Extends s (finish (constructFacade s)) es frames attempts ∧
      frames.length ≤ 2 ∧ attempts ≤ 2 ∧
      ((finish (constructFacade s)).facade = .uninitialized ∨
        frames = [softwareResetFrame, internalReferenceFrame]) := by
  obtain hfirst | hfirst := comingAnswer_cases 0 s
  · obtain hsecond | hsecond := comingAnswer_cases 1 s
    · rw [constructFacade_of_accepts hfirst hsecond]
      exact ⟨_, _, 2, ⟨rfl, rfl, rfl, rfl, rfl⟩, le_rfl, le_rfl, .inr rfl⟩
    · rw [constructFacade_of_second_ioError hfirst hsecond]
      exact ⟨_, _, 2, ⟨rfl, rfl, rfl, rfl, rfl⟩, by simp, le_rfl, .inl rfl⟩
  · rw [constructFacade_of_first_ioError hfirst]
    exact ⟨_, _, 1, ⟨rfl, rfl, rfl, rfl, rfl⟩, by simp, by simp, .inl rfl⟩

/-- What any call with a next state adds to the history, and how it leaves the Facade. -/
theorem runCall_extends {c : HostCall} {t : State} (h : runCall c s = .next t) :
    ∃ es frames attempts, Extends s t es frames attempts ∧ frames.length ≤ 2 ∧
      (frames.length = 2 → c = .construct) ∧ attempts ≤ 2 ∧
      (t.facade = s.facade ∨ t.facade = .uninitialized ∨
        frames = [softwareResetFrame, internalReferenceFrame]) := by
  by_cases hc : c = .construct
  · subst hc
    cases h
    obtain ⟨es, frames, attempts, hext, hframes, hattempts, hfacade⟩ := construct_cases s
    exact ⟨es, frames, attempts, hext, hframes, fun _ => rfl, hattempts, .inr hfacade⟩
  · obtain ⟨es, frames, attempts, hext, hframes, hattempts⟩ :=
      (oneWriteCall_or_construct h).resolve_right hc
    exact ⟨es, frames, attempts, hext, by omega, by omega, by omega,
      .inl ((runCall_facade_eq_or_construct h).resolve_right hc)⟩

end Construction

section Faithful
variable {s t : State} {α β : Type}

theorem historyFaithful_respond (i : Instr) (h : HistoryFaithful s) :
    HistoryFaithful (respond i (coreResponse i) s) := by
  intro e he s₀
  rw [respond_exchanges, List.mem_append, List.mem_singleton] at he
  obtain he | rfl := he
  · exact h e he s₀
  · exact answers_coreResponse i s₀

/-- Only the record of exchanges matters. -/
theorem historyFaithful_of_exchanges_eq (heq : t.exchanges = s.exchanges) (h : HistoryFaithful s) :
    HistoryFaithful t :=
  fun e he => h e (heq ▸ he)

/-- The part of a host composition keeps the record faithful, from whatever state it starts. -/
def KeepsHistory (run : State → HostResult α) : Prop :=
  ∀ s, HistoryFaithful s → HistoryFaithful (run s).1

theorem keepsHistory_thenDo {run : State → HostResult α} {k : α → State → HostResult β}
    (hrun : KeepsHistory run) (hk : ∀ a, KeepsHistory (k a)) :
    KeepsHistory fun s => thenDo (run s) k := by
  intro s hs
  have hfaithful := hrun s hs
  change HistoryFaithful (thenDo (run s) k).1
  generalize run s = r at hfaithful ⊢
  obtain ⟨s', e | a⟩ := r
  · exact hfaithful
  · exact hk a s' hfaithful

/-- A request inside a composition is the one `exec` answers. -/
theorem keepsHistory_of_exec {ask : State → HostResult α} {i : Instr}
    (h : ∀ s, exec i s = .next (ask s).1) : KeepsHistory ask := by
  intro s hs
  rw [exec_next (h s)]
  exact historyFaithful_respond i hs

theorem keepsHistory_hostValue (r : Except CoreError α) : KeepsHistory (hostValue r) := by
  intro s hs
  cases r <;> exact hs

@[simp] theorem transportWrite_exchanges (f : Frame) (s : State) :
    (transportWrite f s).1.exchanges = s.exchanges := by
  obtain h | h := transportAnswer_cases s
  · rw [transportWrite_accepts f s h]
  · rw [transportWrite_ioError f s h]

theorem keepsHistory_transportWrite (f : Frame) : KeepsHistory (transportWrite f) :=
  fun s hs => historyFaithful_of_exchanges_eq (transportWrite_exchanges f s) hs

theorem keepsHistory_sendFields (p c a d f : Int) : KeepsHistory (sendFields p c a d f) :=
  keepsHistory_thenDo (keepsHistory_of_exec (exec_eq_askEncode p c a d f))
    fun _ => keepsHistory_transportWrite _

theorem keepsHistory_sendValue (control : Int) (ch : String) (x : F64) :
    KeepsHistory (sendValue control ch x) :=
  keepsHistory_thenDo (keepsHistory_hostValue _) fun _ =>
    keepsHistory_thenDo (keepsHistory_of_exec (exec_eq_askQuantize x)) fun _ =>
      keepsHistory_sendFields _ _ _ _ _

theorem keepsHistory_updateChannel (ch : String) : KeepsHistory (updateChannel ch) :=
  keepsHistory_thenDo (keepsHistory_hostValue _) fun _ => keepsHistory_sendFields _ _ _ _ _

theorem keepsHistory_sendMasked (opcode : Word) (chs : List String) :
    KeepsHistory (sendMasked opcode chs) :=
  keepsHistory_thenDo (keepsHistory_hostValue _) fun sel =>
    keepsHistory_thenDo (keepsHistory_of_exec (exec_eq_askMask sel)) fun _ =>
      keepsHistory_transportWrite _

theorem keepsHistory_runFacade (op : FacadeOp) : KeepsHistory (runFacade op) := by
  cases op with
  | softwareReset => exact keepsHistory_sendFields 0 7 0 0x0000 0
  | internalReferenceOn => exact keepsHistory_sendFields 0 9 0 0xA000 0
  | clearAllToZero => exact keepsHistory_sendFields 0 5 0 0x0000 0
  | clearAllToMid => exact keepsHistory_sendFields 0 5 0 0x0000 1
  | clearAllToFull => exact keepsHistory_sendFields 0 5 0 0x0000 2
  | writeToRegister ch x => exact keepsHistory_sendValue 0 ch x
  | writeAndUpdate ch x => exact keepsHistory_sendValue 3 ch x
  | writeAndUpdateAll ch x => exact keepsHistory_sendValue 2 ch x
  | updateChannel ch => exact keepsHistory_updateChannel ch
  | writeToLdacRegister chs => exact keepsHistory_sendMasked ldacOpcode chs
  | powerUpDac chs => exact keepsHistory_sendMasked powerUpOpcode chs

theorem keepsHistory_constructFacade : KeepsHistory constructFacade := by
  intro s hs
  refine keepsHistory_thenDo (run := fun s => softwareReset { s with facade := .uninitialized })
    (fun s hs => keepsHistory_sendFields 0 7 0 0x0000 0 _ hs) (fun _ => ?_) s hs
  exact keepsHistory_thenDo (keepsHistory_sendFields 0 9 0 0xA000 0) fun _ s hs => hs

/-- The end of a call touches the report only. -/
theorem historyFaithful_finish {r : HostResult Unit} (h : HistoryFaithful r.1) :
    HistoryFaithful (finish r) := by
  obtain ⟨s, _ | _⟩ := r <;> exact h

/-- Every call keeps the record faithful. -/
theorem runCall_historyFaithful {c : HostCall} (h : runCall c s = .next t)
    (hs : HistoryFaithful s) : HistoryFaithful t := by
  cases c with
  | request line =>
    obtain ⟨i, rfl⟩ | ⟨e, rfl⟩ := runLine_next h
    · exact historyFaithful_respond i hs
    · exact hs
  | lookupCommand name =>
    cases h
    exact historyFaithful_of_exchanges_eq (by simp [(extends_finishLookup _ s).exchanges]) hs
  | lookupChannel label =>
    cases h
    exact historyFaithful_of_exchanges_eq (by simp [(extends_finishLookup _ s).exchanges]) hs
  | write arg =>
    cases hf : writeFrame arg s with
    | ok f =>
      cases (runCall_write_of_frame hf).symm.trans h
      exact historyFaithful_finish (keepsHistory_transportWrite f s hs)
    | error u => cases (runCall_write_of_undefined hf).symm.trans h
  | construct => cases h; exact historyFaithful_finish (keepsHistory_constructFacade s hs)
  | facade op =>
    cases hfacade : s.facade with
    | uninitialized => cases (runCall_facade_of_uninitialized hfacade op).symm.trans h
    | initialized =>
      cases (runCall_facade hfacade op).symm.trans h
      exact historyFaithful_finish (keepsHistory_runFacade op s hs)

end Faithful

section Invariant
variable {s t : State}

theorem constructionSent_of_uninitialized (h : s.facade = .uninitialized) : ConstructionSent s := by
  intro hs
  cases h.symm.trans hs

/-- The two initialization words stay in a log that only grows. -/
theorem constructionSent_of_append {frames : List Frame} (hfacade : t.facade = s.facade)
    (hlog : t.transportLog = s.transportLog ++ frames) (hs : ConstructionSent s) :
    ConstructionSent t := by
  intro ht
  obtain ⟨before, after, hsent⟩ := hs (hfacade ▸ ht)
  exact ⟨before, after ++ frames, by simp [hlog, hsent]⟩

theorem runCall_constructionSent {c : HostCall} (h : runCall c s = .next t)
    (hs : ConstructionSent s) : ConstructionSent t := by
  obtain ⟨es, frames, attempts, hext, -, -, -, hsame | huninit | rfl⟩ := runCall_extends h
  · exact constructionSent_of_append hsame hext.transportLog hs
  · exact constructionSent_of_uninitialized huninit
  · exact fun _ => ⟨s.transportLog, [], by simp [hext.transportLog]⟩

/-- A step moves the position by one and leaves the program (10_state R17). -/
theorem step_position_program (h : step s = .next t) :
    t.position = s.position + 1 ∧ t.program = s.program := by
  obtain ⟨c, -, hc⟩ := step_next h
  obtain ⟨es, frames, attempts, hext, -⟩ := runCall_extends hc
  exact ⟨hext.position, hext.program⟩

theorem step_positionInProgram (h : step s = .next t) : PositionInProgram t := by
  obtain ⟨c, hn, -⟩ := step_next h
  obtain ⟨hposition, hprogram⟩ := step_position_program h
  have hlt : s.position < s.program.length := by
    by_contra! hle
    cases (nextHostStep_eq_none_iff.2 hle).symm.trans hn
  rw [PositionInProgram, hposition, hprogram]
  exact hlt

end Invariant

end Sys2Proof.Machine

open Sys2Proof Sys2Proof.Machine

/-- Settles O59: the step's call keeps the record faithful and the two words sent, and there was a
next entry to move past. -/
theorem stepKeepsTheInvariant : Obligations.StepKeepsTheInvariant := by
  rintro s t ⟨hfaithful, hsent, -⟩ ht
  obtain ⟨c, -, hc⟩ := step_next ht
  exact ⟨runCall_historyFaithful hc hfaithful, runCall_constructionSent hc hsent,
    step_positionInProgram ht⟩

/-- Settles O58: at reset the record is empty and the Facade Uninitialized. -/
theorem resetMeetsTheInvariant : Obligations.ResetMeetsTheInvariant :=
  ⟨fun _ he => absurd he List.not_mem_nil, constructionSent_of_uninitialized reset_facade, le_rfl⟩

/-- Settles O39: the step's call leaves the program and the position, which `advance` has moved; of
the kinds of step in `step_cases` only the missing entry is a fault. -/
theorem positionAdvancesByOne : Obligations.PositionAdvancesByOne := by
  refine ⟨fun s t => step_position_program, fun s => ?_⟩
  rw [← nextHostStep_eq_none_iff]
  constructor
  · intro h
    obtain ⟨hn, -⟩ | ⟨c, d, -, hs⟩ | ⟨c, -, hs⟩ := step_cases s
    · exact hn
    · cases hs.symm.trans h
    · exact absurd (hs.symm.trans h) (runCall_ne_fault c)
  · intro hn
    simp [step, hn]

/-- Settles O55: what the step's call adds to the state with the position moved on. -/
theorem historyOnlyGrows : Obligations.HistoryOnlyGrows := by
  intro s t ht
  obtain ⟨c, hn, hc⟩ := step_next ht
  obtain ⟨es, frames, attempts, hext, hframes, htwo, hattempts, -⟩ := runCall_extends hc
  refine ⟨frames, es, hext.transportLog, hext.exchanges, hframes, fun h => htwo h ▸ hn, ?_⟩
  rw [hext.writeAttempts, advance_writeAttempts]
  exact Nat.add_le_add_left hattempts _

/-- Settles O52: the construction's two ends with an IOError. -/
theorem failedConstructionStaysUninitialized : Obligations.FailedConstructionStaysUninitialized :=
  fun _ => ⟨fun hfirst => congrArg Host.Outcome.next (constructFacade_of_first_ioError hfirst),
    fun hfirst hsecond =>
      congrArg Host.Outcome.next (constructFacade_of_second_ioError hfirst hsecond)⟩

/-- Settles O38: `step_of_call`, with `advance` written out. -/
theorem stepRunsTheHostCall : Obligations.StepRunsTheHostCall :=
  fun _ _ hn => step_of_call hn

/-- Settles O37: the step is the call, the call the request it presents, and the request the
instruction it decodes to. -/
theorem stepRunsTheDecodedInstruction : Obligations.StepRunsTheDecodedInstruction := by
  refine ⟨fun s line r i hn hpresent hdecode => ?_, fun s nbits w i htable => ?_⟩
  · rw [step_of_call hn, runCall_of_decode hpresent hdecode]
    rfl
  · rw [step_of_call (nextHostStep_withFetchWord s nbits w),
      runCall_of_decode rfl (decodeBits_of_decodeTableWord htable)]
    rfl

end

section
/-!
PROOFS. The Word: its fields' concatenation (30_encoding R52), the two round-trip laws
(40_word_encoder R68), and ENCODE as a bijection (R70).
-/

namespace Sys2Proof.Machine

section Word
variable {p c a d f : Int} {w : Word}

/-- A bit vector is the image of its own value. -/
theorem eq_ofInt_of_toNat_eq {n : Nat} {b : BitVec n} {x : Int} (h : (b.toNat : Int) = x) :
    b = BitVec.ofInt n x := by
  rw [← h, BitVec.ofInt_natCast, BitVec.ofNat_toNat, BitVec.setWidth_eq]

/-- The fields of a packed word are the operands. -/
theorem wordFields_packWord (h : LegalFields p c a d f) :
    wordFields (packWord p c a d f) = (BitVec.ofInt 4 p, BitVec.ofInt 4 c, BitVec.ofInt 4 a,
      BitVec.ofInt 16 d, BitVec.ofInt 4 f) := by
  obtain ⟨hp, hc, ha, hd, hf⟩ := packWord_fields h
  rw [wordFields, ← eq_ofInt_of_toNat_eq hp, ← eq_ofInt_of_toNat_eq hc, ← eq_ofInt_of_toNat_eq ha,
    ← eq_ofInt_of_toNat_eq hd, ← eq_ofInt_of_toNat_eq hf]

/-- A word is the concatenation of its fields, which are neighbouring slices. -/
theorem wordFields_append (w : Word) :
    w.extractLsb' 28 4 ++ w.extractLsb' 24 4 ++ w.extractLsb' 20 4 ++ w.extractLsb' 4 16
      ++ w.extractLsb' 0 4 = w := by
  have hpc : w.extractLsb' 28 4 ++ w.extractLsb' 24 4 = w.extractLsb' 24 8 :=
    BitVec.extractLsb'_append_extractLsb'_eq_extractLsb' rfl
  have hpca : w.extractLsb' 24 8 ++ w.extractLsb' 20 4 = w.extractLsb' 20 12 :=
    BitVec.extractLsb'_append_extractLsb'_eq_extractLsb' rfl
  have hpcad : w.extractLsb' 20 12 ++ w.extractLsb' 4 16 = w.extractLsb' 4 28 :=
    BitVec.extractLsb'_append_extractLsb'_eq_extractLsb' rfl
  have hall : w.extractLsb' 4 28 ++ w.extractLsb' 0 4 = w.extractLsb' 0 32 :=
    BitVec.extractLsb'_append_extractLsb'_eq_extractLsb' rfl
  rw [hpc, hpca, hpcad, hall, BitVec.extractLsb'_eq_self]

/-- A packed word is the concatenation of its operands' images. -/
theorem packWord_eq_append (h : LegalFields p c a d f) :
    packWord p c a d f = BitVec.ofInt 4 p ++ BitVec.ofInt 4 c ++ BitVec.ofInt 4 a
      ++ BitVec.ofInt 16 d ++ BitVec.ofInt 4 f := by
  have hfields := wordFields_packWord h
  simp only [wordFields, Prod.mk.injEq] at hfields
  obtain ⟨hp, hc, ha, hd, hf⟩ := hfields
  rw [← hp, ← hc, ← ha, ← hd, ← hf, wordFields_append]

/-- The fields of any word are legal operands. -/
theorem legalFields_wordFields (w : Word) :
    LegalFields (w.extractLsb' 28 4).toNat (w.extractLsb' 24 4).toNat (w.extractLsb' 20 4).toNat
      (w.extractLsb' 4 16).toNat (w.extractLsb' 0 4).toNat := by
  have hp := (w.extractLsb' 28 4).isLt
  have hc := (w.extractLsb' 24 4).isLt
  have ha := (w.extractLsb' 20 4).isLt
  have hd := (w.extractLsb' 4 16).isLt
  have hf := (w.extractLsb' 0 4).isLt
  unfold LegalFields
  omega

/-- Packing the fields of a word gives the word back. -/
theorem packWord_wordFields (w : Word) :
    packWord (w.extractLsb' 28 4).toNat (w.extractLsb' 24 4).toNat (w.extractLsb' 20 4).toNat
      (w.extractLsb' 4 16).toNat (w.extractLsb' 0 4).toNat = w := by
  rw [packWord_eq_append (legalFields_wordFields w)]
  simp only [← eq_ofInt_of_toNat_eq rfl, wordFields_append]

theorem encodeFields_wordFields (w : Word) :
    encodeFields (w.extractLsb' 28 4).toNat (w.extractLsb' 24 4).toNat (w.extractLsb' 20 4).toNat
      (w.extractLsb' 4 16).toNat (w.extractLsb' 0 4).toNat = .ok w := by
  rw [encodeFields_of_legal (legalFields_wordFields w), packWord_wordFields]

/-- ENCODE succeeds on the legal tuples only, with the packed word. -/
theorem encodeFields_eq_ok_iff :
    encodeFields p c a d f = .ok w ↔ LegalFields p c a d f ∧ packWord p c a d f = w := by
  by_cases h : LegalFields p c a d f
  · simp [encodeFields_of_legal h, h]
  · simp [encodeFields_of_not_legal h, h]

/-- The operands of a word are its fields. -/
theorem eq_wordFields_of_encodeFields (h : encodeFields p c a d f = .ok w) :
    (p, c, a, d, f) = (((w.extractLsb' 28 4).toNat : Int), ((w.extractLsb' 24 4).toNat : Int),
      ((w.extractLsb' 20 4).toNat : Int), ((w.extractLsb' 4 16).toNat : Int),
      ((w.extractLsb' 0 4).toNat : Int)) := by
  obtain ⟨hlegal, rfl⟩ := encodeFields_eq_ok_iff.1 h
  obtain ⟨hp, hc, ha, hd, hf⟩ := packWord_fields hlegal
  rw [hp, hc, ha, hd, hf]

end Word

end Sys2Proof.Machine

open Sys2Proof Sys2Proof.Machine

/-- Settles O9: the fields of the packed word are the operands, and they do not overlap. -/
theorem orOfShiftedFieldsIsConcatenation : Obligations.OrOfShiftedFieldsIsConcatenation :=
  fun _ _ _ _ _ h => ⟨packWord_eq_append h, packWord_toNat h⟩

/-- Settles O12: the word is `packWord` of the operands, and of its own fields. -/
theorem decodeOfEncodedWordRecoversFields : Obligations.DecodeOfEncodedWordRecoversFields :=
  ⟨fun p c a d f h => ⟨packWord p c a d f, encodeFields_of_legal h, wordFields_packWord h⟩,
    encodeFields_wordFields⟩

/-- Settles O13: the one tuple whose word is `w` is that of `w`'s fields. -/
theorem encodeIsABijectionOnLegalTuples : Obligations.EncodeIsABijectionOnLegalTuples := by
  refine ⟨fun p c a d f => ?_, fun w => ?_⟩
  · simp [encodeFields_eq_ok_iff]
  · exact ⟨_, ⟨legalFields_wordFields w, encodeFields_wordFields w⟩,
      fun _ ⟨_, ht⟩ => eq_wordFields_of_encodeFields ht⟩

end

section
/-!
PROOFS. What a host's program names: labels and commands of the Registry (10_state R24 to R28,
42_channel_mask R82, R83), earlier results (30_encoding R62), and the AND-composed operations
(43_host_compositions R102 to R104).
-/

namespace Sys2Proof.Machine

section Lookups
variable {table : List (String × BitVec 4)} {symbol : String} {c : BitVec 4}

/-- A lookup finds the code that stands beside its symbol, when no symbol stands twice. -/
theorem lookupIn_of_mem (hnodup : (table.map (·.1)).Nodup) (h : (symbol, c) ∈ table) :
    lookupIn table symbol = .ok c := by
  induction table with
  | nil => cases h
  | cons entry rest ih =>
    obtain ⟨name, code⟩ := entry
    rw [List.map_cons, List.nodup_cons] at hnodup
    obtain ⟨hname, hrest⟩ := hnodup
    rw [lookupIn_cons]
    obtain heq | hmem := List.mem_cons.1 h
    · cases heq
      exact if_pos rfl
    · have hne : symbol ≠ name := fun heq =>
        hname (List.mem_map.2 ⟨(symbol, c), hmem, heq⟩)
      rw [if_neg hne, ih hrest hmem]

theorem lookupIn_of_not_mem (h : symbol ∉ table.map (·.1)) :
    lookupIn table symbol = .error .invalidArgument := by
  induction table with
  | nil => exact lookupIn_nil symbol
  | cons entry rest ih =>
    obtain ⟨name, code⟩ := entry
    rw [List.map_cons, List.mem_cons, not_or] at h
    rw [lookupIn_cons, if_neg h.1, ih h.2]

end Lookups

section Presence
variable {labels xs ys : List String} {s : State}

/-- The presence vector of known labels has exactly their codes' bits (42_channel_mask R82). -/
theorem presenceOf_bits (h : ∀ l ∈ labels, ∃ c, lookupChannel l = .ok c) :
    ∃ sel, presenceOf labels = .ok sel ∧ ∀ i, sel.getLsbD i = true ↔
      ∃ l ∈ labels, ∃ c, lookupChannel l = .ok c ∧ i = c.toNat := by
  obtain ⟨sel, hsel, hbits⟩ := presenceFrom_ok labels 0#16 h
  exact ⟨sel, hsel, fun i => by simp [hbits i]⟩

/-- No known label has one of the codes 8 to 14 (10_state R25). -/
theorem presence_unknown_bits_clear {sel : PresenceVector}
    (hbits : ∀ i, sel.getLsbD i = true →
      ∃ l ∈ labels, ∃ c, lookupChannel l = .ok c ∧ i = c.toNat)
    {i : Nat} (hi : 8 ≤ i) (hi' : i ≤ 14) : sel.getLsbD i = false := by
  refine Bool.eq_false_iff.2 fun hbit => ?_
  obtain ⟨l, -, c, hl, rfl⟩ := hbits i hbit
  obtain hc | rfl := lookupChannel_code hl
  · omega
  · exact absurd hi' (by decide)

theorem presenceOf_of_unknown (h : ∃ l ∈ labels, ∀ c, lookupChannel l ≠ .ok c) :
    presenceOf labels = .error .invalidArgument :=
  presenceFrom_error labels 0#16 h

/-- Order and repeats do not matter, with an unknown label neither (42_channel_mask R82). -/
theorem presenceOf_congr (h : ∀ l, l ∈ xs ↔ l ∈ ys) : presenceOf xs = presenceOf ys := by
  by_cases hknown : ∀ l ∈ xs, ∃ c, lookupChannel l = .ok c
  · obtain ⟨selX, hselX, hbitsX⟩ := presenceOf_bits hknown
    obtain ⟨selY, hselY, hbitsY⟩ := presenceOf_bits fun l hl => hknown l ((h l).2 hl)
    have hsel : selX = selY := BitVec.eq_of_getLsbD_eq fun i _ =>
      Bool.eq_iff_iff.2 (by simp only [hbitsX, hbitsY, h])
    rw [hselX, hselY, hsel]
  · push Not at hknown
    obtain ⟨l, hl, hno⟩ := hknown
    rw [presenceOf_of_unknown ⟨l, hl, hno⟩, presenceOf_of_unknown ⟨l, (h l).1 hl, hno⟩]

/-- A line's outcome is that of what it presents. -/
theorem runCall_congr_present {line line' : RequestLine} (h : present line s = present line' s) :
    runCall (.request line) s = runCall (.request line') s := by
  simp [runCall, runLine, h]

/-- The host's own InvalidArgument, before any request (42_channel_mask R83). -/
theorem runCall_mask_of_unknown (s : State) (h : ∃ l ∈ labels, ∀ c, lookupChannel l ≠ .ok c) :
    runCall (.request (.mask labels)) s
      = .next { s with report := some (.raised (.core .invalidArgument)) } := by
  simp [runCall, runLine, present, presentMask, presenceOf_of_unknown h]

theorem runCall_maskVector (sel : PresenceVector) (s : State) :
    runCall (.request (.maskVector sel)) s = exec (.mask sel) s :=
  runCall_of_decode rfl (Laws.DecodeOfRequest.mask sel rfl).2

end Presence

section NamedResults
variable {s : State} {t : Nat} {p c a d f : Operand}

theorem operandValue_of_code {q : DacCode} (h : responseAt t s = some (.code q)) :
    operandValue (.result t) s = .ok q.toNat := by
  simp [operandValue, h, resultValue]

theorem operandValue_of_error {e : CoreError} (h : responseAt t s = some (.error e)) :
    operandValue (.result t) s = .error t := by
  simp [operandValue, h, resultValue]

/-- An ENCODE line presents its operands' values, however they are written. -/
theorem presentEncode_congr_data {d' : Operand} (h : operandValue d s = operandValue d' s) :
    presentEncode p c a d f s = presentEncode p c a d' f s := by
  simp [presentEncode, h]

/-- One operand without a value is enough for the line to present no request. -/
theorem presentEncode_of_undefined_data (h : operandValue d s = .error t) :
    ∃ u, presentEncode p c a d f s = .undefinedResult u := by
  unfold presentEncode
  split
  case h_1 hd _ => cases h.symm.trans hd
  all_goals exact ⟨_, rfl⟩

theorem writeFrame_of_error {e : CoreError} (h : responseAt t s = some (.error e)) :
    writeFrame (.result t) s = .error t := by
  simp [writeFrame, h]

theorem writeFrame_of_encoded {w : Word} {bytes : Frame}
    (h : responseAt t s = some (.encoded w bytes)) : writeFrame (.result t) s = .ok bytes := by
  simp [writeFrame, h]

end NamedResults

/-- A mask reaches the low eight bits only, so an opcode without bits there composes to zero
(43_host_compositions R104). -/
theorem andComposed_eq_zero {opcode : Word} (h : ∀ i, i < 8 → opcode.getLsbD i = false)
    (m : ChannelMask) : andComposed opcode m = 0#32 := by
  refine BitVec.eq_of_getLsbD_eq fun i hi => ?_
  by_cases h8 : i < 8
  · simp [andComposed, h i h8]
  · simp [andComposed, BitVec.getLsbD_of_ge m i (Nat.le_of_not_lt h8)]

theorem andComposed_ldacOpcode (m : ChannelMask) : andComposed ldacOpcode m = 0#32 :=
  andComposed_eq_zero (by decide) m

theorem andComposed_powerUpOpcode (m : ChannelMask) : andComposed powerUpOpcode m = 0#32 :=
  andComposed_eq_zero (by decide) m

end Sys2Proof.Machine

open Sys2Proof Sys2Proof.Machine

/-- Settles O30: no symbol stands twice in a table, and the report is the lookup's outcome. -/
theorem lookupsReadExactlyTheTables : Obligations.LookupsReadExactlyTheTables := by
  refine ⟨fun name s => ⟨fun c hmem => ?_, fun hno => ?_⟩,
    fun label s => ⟨fun c hmem => ?_, fun hno => ?_⟩⟩
  · have h : lookupCommand name = .ok c := lookupIn_of_mem (by decide) hmem
    rw [runCall, h]
    rfl
  · have h : lookupCommand name = .error .invalidArgument := lookupIn_of_not_mem hno
    rw [runCall, h]
    rfl
  · have h : lookupChannel label = .ok c := lookupIn_of_mem (by decide) hmem
    rw [runCall, h]
    rfl
  · have h : lookupChannel label = .error .invalidArgument := lookupIn_of_not_mem hno
    rw [runCall, h]
    rfl

/-- Settles O27: the vector of the labels' codes has none of the unknown bits, so it has a mask. -/
theorem labelListBecomesItsPresenceVector : Obligations.LabelListBecomesItsPresenceVector := by
  intro labels s hknown
  obtain ⟨sel, hsel, hbits⟩ := presenceOf_bits hknown
  have hclear : ∀ i, 8 ≤ i → i ≤ 14 → sel.getLsbD i = false := fun i =>
    presence_unknown_bits_clear fun i => (hbits i).1
  obtain ⟨m, hm, -⟩ := maskValue_of_no_unknown hclear
  refine ⟨sel, fun c => ?_, hclear, m, exec_mask_ok sel s hm, runCall_mask_ok s hsel hm⟩
  simp [hbits, BitVec.toNat_inj]

/-- Settles O28: what the line presents is settled by the presence vector. -/
theorem maskDependsOnTheSetOfLabels : Obligations.MaskDependsOnTheSetOfLabels := by
  intro xs ys s h
  have hpresence := presenceOf_congr h
  exact ⟨hpresence, runCall_congr_present (by simp [present, presentMask, hpresence])⟩

/-- Settles O29: the host's lookup fails before the request, and the core's check is the first
branch of `maskValue`. -/
theorem unknownLabelIsInvalidArgument : Obligations.UnknownLabelIsInvalidArgument := by
  refine ⟨fun labels l s hl hno => runCall_mask_of_unknown s ⟨l, hl, hno⟩, fun sel s h => ?_⟩
  rw [runCall_maskVector]
  exact exec_mask_error sel s (if_pos h)

/-- Settles O41: the line presents the operand's value, and an error response has none. -/
theorem namedResultIsTheEarlierCode : Obligations.NamedResultIsTheEarlierCode := by
  refine fun s t p c a f => ⟨fun q hq => ?_, fun e he => ?_⟩
  · exact runCall_congr_present (presentEncode_congr_data (operandValue_of_code hq))
  · obtain ⟨u, hu⟩ := presentEncode_of_undefined_data (p := p) (c := c) (a := a) (f := f)
      (operandValue_of_error he)
    exact ⟨u, by simp [runCall, runLine, present, hu]⟩

/-- Settles O42: an error response has no frame, and an encoded word's frame is its bytes. -/
theorem failedResultIsNeverSent : Obligations.FailedResultIsNeverSent :=
  fun _ _ => ⟨fun _ he => runCall_write_of_undefined (writeFrame_of_error he),
    fun _ _ hw => callWrites_of_writeFrame (writeFrame_of_encoded hw)⟩

/-- Settles O43: bytes written out are their own frame. -/
theorem transportLogHoldsTheWritesThatReturned :
    Obligations.TransportLogHoldsTheWritesThatReturned :=
  fun _ _ => callWrites_of_writeFrame rfl

/-- Settles O47: both opcodes compose to zero with any mask, and both operations are
`sendMasked`. -/
theorem andComposedOperationsSendZero : Obligations.AndComposedOperationsSendZero := by
  refine ⟨⟨rfl, rfl, fun m => ⟨andComposed_ldacOpcode m, andComposed_powerUpOpcode m⟩⟩,
    fun chs s op hs hop => ?_⟩
  have hzero : serialize 0#32 = ⟨0x00#8, 0x00#8, 0x00#8, 0x00#8⟩ := by decide
  obtain ⟨opcode, hrun, hcomposed⟩ : ∃ opcode, runFacade op s = sendMasked opcode chs s ∧
      ∀ m, andComposed opcode m = 0#32 := by
    obtain rfl | rfl := hop
    · exact ⟨ldacOpcode, rfl, andComposed_ldacOpcode⟩
    · exact ⟨powerUpOpcode, rfl, andComposed_powerUpOpcode⟩
  refine ⟨fun hl => callFails_of_runFacade hs (hrun.trans (sendMasked_of_unknown opcode hl s)),
    fun hknown => ?_⟩
  obtain ⟨sel, m, hsel, hm⟩ := presenceOf_of_known hknown
  have hsends := hrun.trans (sendMasked_of_mask opcode hsel hm s)
  rw [hcomposed, hzero] at hsends
  exact ⟨sel, m, hsel, exec_mask_ok sel s hm, callWrites_of_runFacade hs hsends⟩

end

section
/-!
PROOFS. The expansion of a Facade operation (30_encoding R63): its host calls, run step by step, end
where the operation ends in one step.
-/

namespace Sys2Proof.Machine

section Calls

/-- The calls run one after the other, each with the position moved past it, from `s` to `t`. -/
def CallsReach : List HostCall → State → State → Prop
  | [], s, t => s = t
  | c :: rest, s, t => ∃ s', runCall c (advance s) = .next s' ∧ CallsReach rest s' t

theorem nextHostStep_of_drop {s : State} {h : HostStep} {rest : List HostStep}
    (hprogram : s.program.drop s.position = h :: rest) : nextHostStep s = some h := by
  rw [nextHostStep, ← Nat.add_zero s.position, ← List.getElem?_drop, hprogram]
  rfl

/-- Calls that stand in the program at the position are run by as many steps. -/
theorem runSteps_of_callsReach {calls : List HostCall} {s t : State} {rest : List HostStep}
    (hprogram : s.program.drop s.position = calls.map HostStep.call ++ rest)
    (hreach : CallsReach calls s t) : runSteps calls.length s = .next t := by
  induction calls generalizing s with
  | nil => exact congrArg _ hreach
  | cons c more ih =>
    obtain ⟨s', hcall, hmore⟩ := hreach
    obtain ⟨es, frames, attempts, hext, -⟩ := runCall_extends hcall
    have hrest : s'.program.drop s'.position = more.map HostStep.call ++ rest := by
      rw [hext.program, hext.position, advance_program, advance_position, ← List.tail_drop,
        hprogram]
      rfl
    rw [List.length_cons, runSteps, step_of_call (nextHostStep_of_drop hprogram), hcall]
    exact ih hrest hmore

/-- `s` after `k` host steps that had no other effect. -/
def movedBy (s : State) (k : Nat) : State :=
  { s with position := s.position + k, report := none }

theorem advance_recorded_movedBy (s : State) (k : Nat) (es : List Exchange) :
    advance (recorded (movedBy s k) es) = recorded (movedBy s (k + 1)) es := rfl

/-- The first call clears the report, so it may as well be cleared before. -/
theorem callsReach_cons_of_movedBy {c : HostCall} {rest : List HostCall} {s t : State}
    (h : CallsReach (c :: rest) (recorded (movedBy s 0) []) t) : CallsReach (c :: rest) s t := by
  rwa [CallsReach, advance_recorded_movedBy, recorded_nil] at h

/-- A call that makes a request adds its exchange for the calls behind it. -/
theorem callsReach_request {c : HostCall} {rest : List HostCall} {s t : State} {k : Nat}
    {es : List Exchange} {i : Instr} {r : Response}
    (hcall : ∀ s', s' = recorded (movedBy s (k + 1)) es → runCall c s' = .next (respond i r s'))
    (hrest : CallsReach rest (recorded (movedBy s (k + 1)) (es ++ [⟨i, r⟩])) t) :
    CallsReach (c :: rest) (recorded (movedBy s k) es) t := by
  refine ⟨_, hcall _ (advance_recorded_movedBy s k es), ?_⟩
  rwa [advance_recorded_movedBy, respond_eq_recorded, recorded_recorded]

theorem callsReach_write {arg : WriteArgument} {s : State} {k : Nat} {es : List Exchange}
    {f : Frame} (h : writeFrame arg (recorded (movedBy s (k + 1)) es) = .ok f) :
    CallsReach [.write arg] (recorded (movedBy s k) es)
      (finish (transportWrite f (recorded (movedBy s (k + 1)) es))) :=
  ⟨_, runCall_write_of_frame h, rfl⟩

/-- A write is the same whatever the position is, and its call's end sets the report. -/
theorem finish_transportWrite_movedBy (f : Frame) (s : State) (es : List Exchange) (k : Nat) :
    finish (transportWrite f (recorded (movedBy s k) es))
      = { finish (transportWrite f (recorded s es)) with position := s.position + k } := by
  obtain h | h := transportAnswer_cases s
  · rw [finish_transportWrite_accepts f (recorded s es) h,
      finish_transportWrite_accepts f (recorded (movedBy s k) es) h]
    rfl
  · rw [finish_transportWrite_ioError f (recorded s es) h,
      finish_transportWrite_ioError f (recorded (movedBy s k) es) h]
    rfl

end Calls

section ExpandedCalls
variable {s : State}

/-- Results are numbered in the order of the responses (30_encoding R62, log 13). -/
theorem responseAt_recorded_movedBy (s : State) (es : List Exchange) (k j : Nat) :
    responseAt (s.exchanges.length + j) (recorded (movedBy s k) es) = es[j]?.map (·.response) := by
  rw [responseAt, recorded, movedBy, List.getElem?_append_right (Nat.le_add_right _ j),
    Nat.add_sub_cancel_left]

theorem wellFormed_of_legalFields {p c a d f : Int} (h : LegalFields p c a d f) :
    (Instr.encode p c a d f).wellFormed = true := by
  obtain ⟨hp, hp', hc, hc', ha, ha', hd, hd', hf, hf'⟩ := h
  simp only [Instr.wellFormed, Bool.and_eq_true, fitsPort_iff]
  omega

/-- The expansion's ENCODE line makes the request the composition makes. -/
theorem runCall_encodeLine {control address d feature : Int} {data : Operand}
    (h : LegalFields 0 control address d feature) (hdata : operandValue data s = .ok d) :
    runCall (encodeLine control address data feature) s
      = .next (respond (.encode 0 control address d feature)
          (.encoded (packWord 0 control address d feature)
            (serialize (packWord 0 control address d feature))) s) := by
  have hpresent : present (.encode (.int 0) (.int control) (.int address) data (.int feature)) s
      = .request (encodeRequest 0 control address d feature) := by
    rw [present, presentEncode, hdata]
    rfl
  rw [encodeLine, runCall_of_decode hpresent (decodeOfRequest _ (wellFormed_of_legalFields h)).2]
  exact answers_encode_of_legal s h

theorem writeFrame_of_mask {opcode : Word} {t : Nat} {m : ChannelMask}
    (h : responseAt t s = some (.mask m)) :
    writeFrame (.masked opcode t) s = .ok (serialize (andComposed opcode m)) := by
  simp [writeFrame, h]

theorem runCall_quantize_pattern (x : F64) (s : State) :
    runCall (.request (.quantize (.pattern x))) s = exec (.quantize x) s :=
  runCall_of_decode rfl (Laws.DecodeOfRequest.quantize x rfl).2

/-- A label list with a presence vector has a mask. -/
theorem maskValue_of_presenceOf {chs : List String} {sel : PresenceVector}
    (h : presenceOf chs = .ok sel) : ∃ m, maskValue sel = .ok m := by
  by_cases hknown : ∀ l ∈ chs, ∃ c, lookupChannel l = .ok c
  · obtain ⟨sel', m, hsel, hm⟩ := presenceOf_of_known hknown
    cases hsel.symm.trans h
    exact ⟨m, hm⟩
  · push Not at hknown
    cases (presenceOf_of_unknown hknown).symm.trans h

/-- In `s` the composition comes to one write, and the calls, run one by one, to the same write in
the state moved past them. -/
def ExpandsTo (run : State → HostResult Unit) (calls : List HostCall) (s : State) : Prop :=
  ∃ f es, run s = transportWrite f (recorded s es) ∧
    CallsReach calls s (finish (transportWrite f (recorded (movedBy s calls.length) es)))

end ExpandedCalls

section Expansions
variable {s : State}

theorem expandsTo_sendFields {control address d feature : Int}
    (h : LegalFields 0 control address d feature) (s : State) :
    ExpandsTo (sendFields 0 control address d feature)
      [encodeLine control address (.int d) feature, .write (.result s.exchanges.length)] s := by
  refine ⟨_, _, sendFields_of_legal h s, callsReach_cons_of_movedBy
    (callsReach_request (fun s' _ => runCall_encodeLine h rfl) (callsReach_write ?_))⟩
  exact writeFrame_of_encoded (responseAt_recorded_movedBy s _ 2 0)

theorem expandsTo_sendValue {control : Nat} (hcontrol : control ≤ 15) {ch : String} {x : F64}
    {a : BitVec 4} {q : DacCode} (ha : lookupChannel ch = .ok a) (hq : quantizeValue x = .ok q)
    (s : State) :
    ExpandsTo (sendValue control ch x)
      [.request (.quantize (.pattern x)),
        encodeLine control a.toNat (.result s.exchanges.length) 0,
        .write (.result (s.exchanges.length + 1))] s := by
  refine ⟨_, _, sendValue_of_code hcontrol ha hq s, callsReach_cons_of_movedBy
    (callsReach_request
      (fun s' _ => (runCall_quantize_pattern x s').trans (exec_quantize_ok x s' hq))
    (callsReach_request
      (fun s' hs' => runCall_encodeLine (legalFields_of_codes hcontrol a q) ?_)
    (callsReach_write ?_)))⟩
  · subst hs'
    exact operandValue_of_code (responseAt_recorded_movedBy s _ 2 0)
  · exact writeFrame_of_encoded (responseAt_recorded_movedBy s _ 3 1)

theorem expandsTo_sendMasked (opcode : Word) {chs : List String} {sel : PresenceVector}
    (hsel : presenceOf chs = .ok sel) (s : State) :
    ExpandsTo (sendMasked opcode chs)
      [.request (.maskVector sel), .write (.masked opcode s.exchanges.length)] s := by
  obtain ⟨m, hm⟩ := maskValue_of_presenceOf hsel
  refine ⟨_, _, sendMasked_of_mask opcode hsel hm s, callsReach_cons_of_movedBy
    (callsReach_request
      (fun s' _ => (runCall_maskVector sel s').trans (exec_mask_ok sel s' hm))
    (callsReach_write ?_))⟩
  exact writeFrame_of_mask (responseAt_recorded_movedBy s _ 2 0)

/-- A value operation without a core error has found its channel and a legal value. -/
theorem expandsTo_of_expandValue {control : Nat} (hcontrol : control ≤ 15) {ch : String} {x : F64}
    {calls : List HostCall} (hcalls : expandValue control ch x s.exchanges.length = .ok calls)
    (hcore : ∀ s' e, sendValue control ch x s ≠ (s', .error (.core e))) :
    ExpandsTo (sendValue control ch x) calls s := by
  cases ha : lookupChannel ch with
  | error e => simp [expandValue, ha] at hcalls
  | ok a =>
    have hx : LegalUnit x := by
      by_contra hx
      exact hcore _ _ (sendValue_of_not_legal control ha hx s)
    simp only [expandValue, ha, Except.ok.injEq] at hcalls
    subst hcalls
    exact expandsTo_sendValue hcontrol ha (quantizeValue_of_legal hx) s

theorem expandsTo_of_expandMasked {opcode : Word} {chs : List String} {calls : List HostCall}
    (hcalls : expandMasked opcode chs s.exchanges.length = .ok calls) :
    ExpandsTo (sendMasked opcode chs) calls s := by
  cases hsel : presenceOf chs with
  | error e => simp [expandMasked, hsel] at hcalls
  | ok sel =>
    simp only [expandMasked, hsel, Except.ok.injEq] at hcalls
    subst hcalls
    exact expandsTo_sendMasked opcode hsel s

theorem expandsTo_updateChannel {ch : String} {calls : List HostCall}
    (hcalls : expandFacade (.updateChannel ch) s.exchanges.length = .ok calls) :
    ExpandsTo (updateChannel ch) calls s := by
  cases ha : lookupChannel ch with
  | error e => simp [expandFacade, ha] at hcalls
  | ok a =>
    simp only [expandFacade, ha, Except.ok.injEq] at hcalls
    subst hcalls
    rw [funext (updateChannel_of_known ha)]
    exact expandsTo_sendFields (legalFields_updateChannel a) s

/-- Every operation that no core error ends comes to the write its expansion comes to. -/
theorem expandsTo_runFacade {op : FacadeOp} {calls : List HostCall}
    (hcalls : expandFacade op s.exchanges.length = .ok calls)
    (hcore : ∀ s' e, runFacade op s ≠ (s', .error (.core e))) :
    ExpandsTo (runFacade op) calls s := by
  cases op with
  | softwareReset => cases hcalls; exact expandsTo_sendFields ((allFit_iff 0 7 0 0 0).1 rfl) s
  | internalReferenceOn =>
    cases hcalls
    exact expandsTo_sendFields ((allFit_iff 0 9 0 0xA000 0).1 rfl) s
  | clearAllToZero => cases hcalls; exact expandsTo_sendFields ((allFit_iff 0 5 0 0 0).1 rfl) s
  | clearAllToMid => cases hcalls; exact expandsTo_sendFields ((allFit_iff 0 5 0 0 1).1 rfl) s
  | clearAllToFull => cases hcalls; exact expandsTo_sendFields ((allFit_iff 0 5 0 0 2).1 rfl) s
  | writeToRegister ch x =>
    exact expandsTo_of_expandValue (control := 0) (by decide) hcalls hcore
  | writeAndUpdate ch x =>
    exact expandsTo_of_expandValue (control := 3) (by decide) hcalls hcore
  | writeAndUpdateAll ch x =>
    exact expandsTo_of_expandValue (control := 2) (by decide) hcalls hcore
  | updateChannel ch => exact expandsTo_updateChannel hcalls
  | writeToLdacRegister chs => exact expandsTo_of_expandMasked hcalls
  | powerUpDac chs => exact expandsTo_of_expandMasked hcalls

end Expansions

end Sys2Proof.Machine

open Sys2Proof Sys2Proof.Machine

/-- Settles O56: operation and expansion come to the same write, whose state differs in the position
alone. -/
theorem facadeOperationEqualsItsExpansion : Obligations.FacadeOperationEqualsItsExpansion := by
  intro op s t calls rest hs hcalls hprogram ht hreport
  cases (runCall_facade hs op).symm.trans ht
  have hcore : ∀ s' e, runFacade op s ≠ (s', .error (.core e)) := fun s' e h =>
    hreport e (by rw [h]; rfl)
  obtain ⟨f, es, hrun, hreach⟩ := expandsTo_runFacade hcalls hcore
  rw [hrun, runSteps_of_callsReach hprogram hreach, finish_transportWrite_movedBy]

end

section
/-!
PROOFS. binary64: the comparisons (00_scope R12), and the one rounding, which a product
(41_quantizer R74) and a literal (30_encoding R62) share.
-/

namespace Sys2Proof.Machine

section Values

/-- A number with a sign: the value of a sign and an absolute value. -/
def signed (negative : Bool) (n : Nat) : Int := if negative then -n else n

theorem f64Units_eq_signed (x : F64) :
    f64Units x = signed (f64Sign x) (unitsOf (f64Magnitude x)) :=
  f64Units_eq x

theorem f64Key_eq_signed (x : F64) : f64Key x = signed (f64Sign x) (f64Magnitude x) := rfl

@[simp] theorem abs_signed (b : Bool) (n : Nat) : |signed b n| = n := by
  cases b <;> simp [signed]

theorem signed_mul_signed (a b : Bool) (m n : Nat) :
    signed a m * signed b n = signed (a != b) (m * n) := by
  cases a <;> cases b <;> simp [signed]

theorem signed_mul_natCast (b : Bool) (m n : Nat) : signed b m * n = signed b (m * n) := by
  cases b <;> simp [signed]

/-- Magnitudes and the values they stand for are in the same order, signs included. -/
theorem signed_lt_iff_unitsOf (a b : Bool) (m n : Nat) :
    signed a m < signed b n ↔ signed a (unitsOf m) < signed b (unitsOf n) := by
  have hmn := unitsOf_strictMono.lt_iff_lt (a := m) (b := n)
  have hnm := unitsOf_strictMono.lt_iff_lt (a := n) (b := m)
  have hm := unitsOf_strictMono.lt_iff_lt (a := 0) (b := m)
  have hn := unitsOf_strictMono.lt_iff_lt (a := 0) (b := n)
  rw [unitsOf_zero] at hm hn
  cases a <;> cases b <;> simp only [signed, if_true, if_false, Bool.false_eq_true] <;> omega

theorem f64Key_lt_iff (x y : F64) : f64Key x < f64Key y ↔ f64Units x < f64Units y := by
  rw [f64Key_eq_signed, f64Key_eq_signed, f64Units_eq_signed, f64Units_eq_signed]
  exact signed_lt_iff_unitsOf _ _ _ _

theorem f64Lt_of_nan {x y : F64} (h : isNaN x = true ∨ isNaN y = true) : f64Lt x y = false := by
  obtain h | h := h <;> simp [f64Lt, h]

theorem f64Lt_iff_of_not_nan {x y : F64} (hx : isNaN x = false) (hy : isNaN y = false) :
    f64Lt x y = true ↔ f64Units x < f64Units y := by
  simp [f64Lt, hx, hy, f64Key_lt_iff]

/-- The last fraction bit is the parity of the magnitude. -/
theorem getLsbD_zero_of_even {x : F64} (h : f64Magnitude x % 2 = 0) : x.getLsbD 0 = false := by
  have hx := f64_toNat_eq x
  have heven : x.toNat % 2 = 0 := by
    split at hx <;> omega
  simp [BitVec.getLsbD, heven]

end Values

section Nearest
variable {num den : Nat}

/-- A representable value below the exact one is not above the rounded one. -/
theorem le_nearestMagnitude {m : Nat} (hd : 0 < den) (hm : m ≤ infinityMagnitude)
    (h : unitsOf m * den ≤ num) : m ≤ nearestMagnitude num den :=
  nearestMagnitude_exact hd hm ▸ nearestMagnitude_mono hd h

theorem nearestMagnitude_le {m : Nat} (hd : 0 < den) (hm : m ≤ infinityMagnitude)
    (h : num ≤ unitsOf m * den) : nearestMagnitude num den ≤ m :=
  nearestMagnitude_exact hd hm ▸ nearestMagnitude_mono hd h

theorem nearestMagnitude_le_infinity (hd : 0 < den) :
    nearestMagnitude num den ≤ infinityMagnitude := by
  rw [nearestMagnitude_eq _ _ hd]
  exact min_le_right _ _

/-- The largest finite value. -/
theorem unitsOf_largest :
    (unitsOf (infinityMagnitude - 1) : Int) = (2 ^ 53 - 1) * 2 ^ 2045 := by
  have hform : infinityMagnitude - 1 = 2045 * 2 ^ 52 + (2 ^ 53 - 1) := by decide
  rw [hform, unitsOf_scaled (Nat.sub_le _ 1) (.inr (by norm_num)), Nat.cast_mul, Nat.cast_pow,
    Nat.cast_sub (Nat.one_le_two_pow), Nat.cast_pow, Nat.cast_ofNat, Nat.cast_one]

/-- Within the finite range nothing rounds to an infinity. -/
theorem nearestMagnitude_lt_infinity (hd : 0 < den)
    (h : (num : Int) ≤ (2 ^ 53 - 1) * 2 ^ 2045 * den) :
    nearestMagnitude num den < infinityMagnitude := by
  have hpos : 0 < infinityMagnitude := by decide
  rw [← unitsOf_largest, ← Nat.cast_mul, Int.ofNat_le] at h
  exact (nearestMagnitude_le hd (Nat.sub_le infinityMagnitude 1) h).trans_lt
    (Nat.sub_lt hpos one_pos)

/-- Of a number and its opposite, the one with the sign of `v` is as near to `v` as the distance of
the absolute values; the other is as far as their sum. -/
theorem abs_signed_sub_signed (a b : Bool) (m n : Nat) :
    |signed a m - signed b n| = if a = b then |(m : Int) - n| else (m : Int) + n := by
  have habs : |-(m : Int) + n| = |(m : Int) - n| := by rw [← abs_neg]; ring_nf
  have hpos : |(m : Int) + n| = m + n := abs_of_nonneg (by positivity)
  have hneg : |-(m : Int) - n| = m + n := by rw [← abs_neg, ← hpos]; ring_nf
  cases a <;> cases b <;> simp [signed, habs, hpos, hneg]

theorem abs_sub_natCast_le (m n : Nat) : |(m : Int) - n| ≤ m + n :=
  abs_le.2 ⟨by omega, by omega⟩

/-- The distance of two absolute values is their sum only when one of them is zero. -/
theorem eq_zero_or_of_abs_sub_natCast {m n : Nat} (h : |(m : Int) - n| = m + n) :
    m = 0 ∨ n = 0 := by
  obtain h' | h' := abs_choice ((m : Int) - n) <;> omega

/-- A finite pattern whose magnitude is the rounding of `num / den` is nearest to that number with
the pattern's sign, and of two equally near ones it is the even one. -/
theorem nearest_of_magnitude {x : F64} (hd : 0 < den)
    (hmag : f64Magnitude x = nearestMagnitude num den) (hfinite : f64Finite x) (z : F64) :
    |signed (f64Sign x) num - f64Units x * den| ≤ |signed (f64Sign x) num - f64Units z * den| ∧
    (|signed (f64Sign x) num - f64Units x * den| = |signed (f64Sign x) num - f64Units z * den| →
      f64Units z = f64Units x ∨ x.getLsbD 0 = false) := by
  have hround : f64Magnitude x = roundMagnitude num den := by
    have hlt : nearestMagnitude num den < infinityMagnitude := hmag ▸ hfinite
    rw [hmag]
    rw [nearestMagnitude_eq _ _ hd] at hlt ⊢
    omega
  obtain ⟨hnearest, htie⟩ := roundMagnitude_nearest (num := num) hd (f64Magnitude z)
  rw [← hround] at hnearest htie
  rw [f64Units_eq_signed x, f64Units_eq_signed z, signed_mul_natCast, signed_mul_natCast,
    abs_signed_sub_signed, abs_signed_sub_signed, if_pos rfl]
  simp only [← Nat.cast_mul] at hnearest htie
  split
  case isTrue hsign =>
    refine ⟨hnearest, fun heq => (htie heq).imp (fun hz => ?_) getLsbD_zero_of_even⟩
    rw [hz, hsign]
  case isFalse hsign =>
    have hle := abs_sub_natCast_le num (unitsOf (f64Magnitude z) * den)
    refine ⟨hnearest.trans hle, fun heq => ?_⟩
    refine (htie (le_antisymm hnearest (hle.trans heq.ge))).imp (fun hz => ?_) getLsbD_zero_of_even
    rw [hz] at heq ⊢
    have hunits : unitsOf (f64Magnitude x) = 0 := by
      obtain hnum | hproduct := eq_zero_or_of_abs_sub_natCast heq
      · rw [hmag, hnum, nearestMagnitude_zero, unitsOf_zero]
      · exact (Nat.mul_eq_zero.1 hproduct).resolve_right hd.ne'
    simp [hunits, signed]

end Nearest

section RoundedPatterns

theorem f64Magnitude_ofRatio (negative : Bool) {num den : Nat} (hd : 0 < den) :
    f64Magnitude (f64OfRatio negative num den) = nearestMagnitude (num * 2 ^ 1074) den := by
  have hinfinity : infinityMagnitude < 2 ^ 63 := by decide
  exact f64Magnitude_pack negative ((nearestMagnitude_le_infinity hd).trans_lt hinfinity)

@[simp] theorem f64Sign_ofRatio (negative : Bool) (num den : Nat) :
    f64Sign (f64OfRatio negative num den) = negative :=
  f64Sign_pack _ _

end RoundedPatterns

end Sys2Proof.Machine

open Sys2Proof Sys2Proof.Machine

/-- Settles O24: the key the comparison orders is the value's sign and magnitude. -/
theorem comparisonFollowsTheValues : Obligations.ComparisonFollowsTheValues :=
  fun _ _ => ⟨fun h => ⟨f64Lt_of_nan h, f64Lt_of_nan h.symm⟩,
    fun hx hy => ⟨f64Lt_iff_of_not_nan hx hy, f64Lt_iff_of_not_nan hy hx⟩⟩

/-- Settles O22: the product's magnitude is the exact product's, rounded. -/
theorem productIsNearestTiesToEven : Obligations.ProductIsNearestTiesToEven := by
  intro x y _ _
  have hd : 0 < 2 ^ 1074 := pow_pos two_pos 1074
  have hden : ((2 ^ 1074 : Nat) : Int) = 2 ^ 1074 := Nat.cast_pow 2 1074
  have hmag := fmul64_magnitude x y
  have hproduct : f64Units x * f64Units y = signed (f64Sign (fmul64 x y))
      (unitsOf (f64Magnitude x) * unitsOf (f64Magnitude y)) := by
    rw [f64Units_eq_signed, f64Units_eq_signed, signed_mul_signed, fmul64_sign]
  rw [hproduct, abs_signed, ← hden]
  exact ⟨fmul64_sign x y, fun h => hmag.trans_lt (nearestMagnitude_lt_infinity hd h),
    fun hfinite z _ => nearest_of_magnitude hd hmag hfinite z⟩

/-- Settles O23: a decimal literal is the rounded ratio of two naturals, with the sign written. -/
theorem literalDenotesTheNearestValue : Obligations.LiteralDenotesTheNearestValue := by
  refine ⟨fun bits => rfl, ?_⟩
  intro negative coefficient exponent x value den hx hvalue hden
  rw [literalBits_decimal] at hx
  have hd : 0 < 10 ^ (-exponent).toNat := pow_pos (by norm_num) _
  have hsign : f64Sign x = negative := by rw [hx, f64Sign_ofRatio]
  have hmag := f64Magnitude_ofRatio negative (num := coefficient * 10 ^ exponent.toNat) hd
  have hvalue' : value = signed negative (coefficient * 10 ^ exponent.toNat) := by
    rw [hvalue]
    cases negative <;> simp [signed]
  have hden' : den = (10 ^ (-exponent).toNat : Nat) := by
    rw [hden, Nat.cast_pow, Nat.cast_ofNat]
  have hscale : ((2 ^ 1074 : Nat) : Int) = 2 ^ 1074 := Nat.cast_pow 2 1074
  rw [← hx] at hmag
  rw [hvalue', hden', abs_signed, ← hscale, signed_mul_natCast, ← hsign]
  refine ⟨rfl, fun h => hmag.trans_lt (nearestMagnitude_lt_infinity hd ?_),
    fun hfinite z _ => nearest_of_magnitude hd hmag hfinite z⟩
  have hpow : (2 : Int) ^ 2045 = 2 ^ 971 * 2 ^ 1074 := pow_add 2 971 1074
  have hscaled := Int.mul_le_mul_of_nonneg_right h (pow_nonneg zero_le_two 1074)
  rw [mul_right_comm, mul_assoc (2 ^ 53 - 1), ← hpow] at hscaled
  rwa [Nat.cast_mul, hscale]

end

section
/-!
PROOFS. QUANTIZE's operands and codes (41_quantizer R72 to R78, 92_eei_decisions D8 to D11): the
accepted patterns, the code against the exact product, and the codes it inverts.
-/

namespace Sys2Proof.Machine

section Operands
variable {v : F64}

theorem not_legalUnit (h : isNaN v = true ∨ f64Lt v f64Zero = true ∨ f64Gt v f64One = true) :
    ¬ LegalUnit v := by
  rintro ⟨hnan, hlt, hgt⟩
  simp [hnan, hlt, hgt] at h

theorem answers_quantize_of_not_legal (s : State) (h : ¬ LegalUnit v) :
    Answers (.quantize v) s (.error .rangeError) :=
  (answers_iff _ s _).2 (exec_quantize_error v s (quantizeValue_of_not_legal h))

/-- The accepted patterns: 0.0 up to 1.0, and −0.0 (30_encoding R54). -/
theorem legalUnit_iff_pattern (v : F64) :
    LegalUnit v ↔ v.toNat ≤ 0x3FF0000000000000 ∨ v = 0x8000000000000000#64 := by
  have hv := f64_toNat_eq v
  have hmagnitude := f64Magnitude_lt v
  rw [legalUnit_iff, ← BitVec.toNat_inj]
  cases hsign : f64Sign v <;> simp [hsign] at hv ⊢ <;> omega

/-- A pattern up to that of 1.0 is its own magnitude. -/
theorem f64Magnitude_of_le_one (h : v.toNat ≤ 0x3FF0000000000000) : f64Magnitude v = v.toNat := by
  have hv := f64_toNat_eq v
  cases hsign : f64Sign v <;> simp [hsign] at hv <;> omega

/-- The code of a legal operand is settled by the floor of its product. -/
theorem answers_code_of_floor (s : State) (h : LegalUnit v) {n : Nat}
    (hn : f64Floor (quantizeProduct v) = n) :
    Answers (.quantize v) s (.code (BitVec.ofNat 16 n)) := by
  obtain ⟨c, hanswer, hc⟩ := answers_quantize_of_legal s h
  have hcn : c.toNat = n := by omega
  rwa [← hcn, BitVec.ofNat_toNat, BitVec.setWidth_eq]

/-- A legal operand whose product is below 1.0 has the code 0. -/
theorem answers_zero_of_floor_lt_one (s : State) (h : LegalUnit v)
    (hlt : f64Floor (quantizeProduct v) < 1) : Answers (.quantize v) s (.code 0#16) := by
  have hnonneg := floor_quantizeProduct_nonneg h
  exact answers_code_of_floor s h (n := 0) (by omega)

end Operands

section TinyOperands
variable {v : F64}

theorem f64Units_one : f64Units f64One = 2 ^ 1074 := by
  decide +kernel

theorem f64Units_lt_of_f64Lt {x y : F64} (h : f64Lt x y = true) : f64Units x < f64Units y := by
  simp only [f64Lt, Bool.and_eq_true, decide_eq_true_eq] at h
  exact (f64Key_lt_iff x y).1 h.2

theorem f64Floor_lt_one {x : F64} (h : f64Lt x f64One = true) : f64Floor x < 1 := by
  have hunits := f64Units_lt_of_f64Lt h
  rw [f64Units_one] at hunits
  rw [f64Floor_eq]
  exact Int.ediv_lt_of_lt_mul (pow_pos two_pos 1074) (by rwa [Int.one_mul])

/-- 0x3EF000100010000F, the last pattern before 0x3EF0001000100010, still has the floor 0, and the
patterns below it are not above it. -/
theorem answers_zero_of_lt_firstOne (s : State) (h : v.toNat < 0x3EF0001000100010) :
    Answers (.quantize v) s (.code 0#16) := by
  have hlast : LegalUnit 0x3EF000100010000F#64 := (legalUnit_iff_pattern _).2 (.inl (by decide))
  have hfloor : f64Floor (quantizeProduct 0x3EF000100010000F#64) < 1 := by decide +kernel
  have hv : LegalUnit v := (legalUnit_iff_pattern v).2 (.inl (by omega))
  have hle : f64Units v ≤ f64Units 0x3EF000100010000F#64 := by
    rw [f64Units_of_legal hv, f64Units_of_legal hlast, Int.ofNat_le]
    refine unitsOf_strictMono.monotone ?_
    rw [f64Magnitude_of_le_one (by omega), f64Magnitude_of_le_one (by decide)]
    exact Nat.le_of_lt_succ h
  exact answers_zero_of_floor_lt_one s hv
    ((f64Floor_mono (quantizeProduct_mono hv hlast hle)).trans_lt hfloor)

end TinyOperands

section Rounding

/-- The magnitude of a natural number from `2 ^ j` to `2 ^ (j + 1)`. -/
def natMagnitude (j n : Nat) : Nat := (j + 1022) * 2 ^ 52 + n * 2 ^ (52 - j)

theorem natMagnitude_scale {j : Nat} (hj : j ≤ 52) (n : Nat) :
    n * 2 ^ (52 - j) * 2 ^ (j + 1022) = n * 2 ^ 1074 := by
  rw [Nat.mul_assoc, ← pow_add, show 52 - j + (j + 1022) = 1074 by omega]

theorem two_pow_mul_significandScale {j i : Nat} (hj : j ≤ 52) :
    2 ^ (j + i) * 2 ^ (52 - j) = 2 ^ (52 + i) := by
  rw [← pow_add, show j + i + (52 - j) = 52 + i by omega]

theorem unitsOf_natMagnitude {j n : Nat} (hj : j ≤ 52) (hn : 2 ^ j ≤ n) (hn' : n ≤ 2 ^ (j + 1)) :
    unitsOf (natMagnitude j n) = n * 2 ^ 1074 := by
  have hlow := two_pow_mul_significandScale hj (i := 0)
  have hhigh := two_pow_mul_significandScale hj (i := 1)
  rw [natMagnitude, unitsOf_scaled (hhigh ▸ Nat.mul_le_mul_right _ hn')
    (.inr (hlow ▸ Nat.mul_le_mul_right _ hn)), natMagnitude_scale hj]

theorem natMagnitude_le_infinity {j n : Nat} (hj : j ≤ 16) (hn : n ≤ 2 ^ (j + 1)) :
    natMagnitude j n ≤ infinityMagnitude := by
  have hhigh := two_pow_mul_significandScale (show j ≤ 52 by omega) (i := 1)
  have hsignificand : n * 2 ^ (52 - j) ≤ 2 ^ 53 := hhigh ▸ Nat.mul_le_mul_right _ hn
  unfold natMagnitude infinityMagnitude
  omega

/-- Every natural number that a product with 65535 can reach is a binary64 value. -/
theorem exists_magnitude_of_nat {n : Nat} (hn : n ≤ 2 ^ 16) :
    ∃ m, m ≤ infinityMagnitude ∧ (unitsOf m : Int) = n * 2 ^ 1074 := by
  obtain rfl | hpos := Nat.eq_zero_or_pos n
  · exact ⟨0, Nat.zero_le _, by rw [unitsOf_zero, Nat.cast_zero, Int.zero_mul]⟩
  have hlow : 2 ^ Nat.log2 n ≤ n := Nat.log2_self_le hpos.ne'
  have hhigh : n ≤ 2 ^ (Nat.log2 n + 1) := Nat.lt_log2_self.le
  have hj : Nat.log2 n ≤ 16 := by
    rw [Nat.log2_eq_log_two]
    exact (Nat.log_mono_right hn).trans_eq (Nat.log_pow Nat.one_lt_two 16)
  refine ⟨natMagnitude (Nat.log2 n) n, natMagnitude_le_infinity hj hhigh, ?_⟩
  rw [unitsOf_natMagnitude (by omega) hlow hhigh, Nat.cast_mul, Nat.cast_pow, Nat.cast_ofNat]

theorem unitsOf_fullScale : unitsOf (f64Magnitude f64FullScale) = 65535 * 2 ^ 1074 := by
  decide +kernel

variable {v : F64} {n : Nat}

/-- The value of a legal operand's product is the exact product rounded, with the common scale of
65535.0 left in. -/
theorem f64Units_quantizeProduct_eq (h : LegalUnit v) :
    f64Units (quantizeProduct v) = unitsOf
      (nearestMagnitude (unitsOf (f64Magnitude v) * 65535 * 2 ^ 1074) (2 ^ 1074)) := by
  rw [f64Units_quantizeProduct h, unitsOf_fullScale, Nat.mul_assoc]

/-- The rounding passes no natural number. -/
theorem quantizeProduct_le_of_exact_le (h : LegalUnit v) (hn : n ≤ 2 ^ 16)
    (hle : f64Units v * 65535 ≤ n * 2 ^ 1074) :
    f64Units (quantizeProduct v) ≤ n * 2 ^ 1074 := by
  obtain ⟨m, hm, hunits⟩ := exists_magnitude_of_nat hn
  rw [f64Units_of_legal h, ← hunits] at hle
  rw [f64Units_quantizeProduct_eq h, ← hunits, Int.ofNat_le]
  have hexact : unitsOf (f64Magnitude v) * 65535 ≤ unitsOf m := Int.ofNat_le.1 hle
  exact unitsOf_strictMono.monotone
    (nearestMagnitude_le (pow_pos two_pos 1074) hm (Nat.mul_le_mul_right _ hexact))

theorem le_quantizeProduct_of_le_exact (h : LegalUnit v) (hn : n ≤ 2 ^ 16)
    (hle : n * 2 ^ 1074 ≤ f64Units v * 65535) :
    n * 2 ^ 1074 ≤ f64Units (quantizeProduct v) := by
  obtain ⟨m, hm, hunits⟩ := exists_magnitude_of_nat hn
  rw [f64Units_of_legal h, ← hunits] at hle
  rw [f64Units_quantizeProduct_eq h, ← hunits, Int.ofNat_le]
  have hexact : unitsOf m ≤ unitsOf (f64Magnitude v) * 65535 := Int.ofNat_le.1 hle
  exact unitsOf_strictMono.monotone
    (le_nearestMagnitude (pow_pos two_pos 1074) hm (Nat.mul_le_mul_right _ hexact))

/-- Between two neighbouring natural numbers the product stays between them. -/
theorem floor_quantizeProduct_of_exact (h : LegalUnit v) (hn : n < 2 ^ 16)
    (hfloor : f64Units v * 65535 / 2 ^ 1074 = n) :
    f64Floor (quantizeProduct v) = n ∨ f64Floor (quantizeProduct v) = n + 1 := by
  have hpos : (0 : Int) < 2 ^ 1074 := pow_pos two_pos 1074
  obtain ⟨hle, hlt⟩ := (Int.ediv_eq_iff_of_pos hpos).1 hfloor
  have hlower := le_quantizeProduct_of_le_exact h hn.le hle
  have hupper := quantizeProduct_le_of_exact_le h (n := n + 1) hn
    (by rw [Nat.cast_succ, Int.add_mul, Int.one_mul]; exact hlt.le)
  rw [← Int.le_ediv_iff_mul_le hpos, ← f64Floor_eq] at hlower
  have hupper' := Int.ediv_le_of_le_mul hpos hupper
  rw [← f64Floor_eq] at hupper'
  omega

/-- The exact product of a legal operand is at most 65535. -/
theorem exactFloor_lt (h : LegalUnit v) :
    ∃ n : Nat, n < 2 ^ 16 ∧ f64Units v * 65535 / 2 ^ 1074 = n := by
  have hpos : (0 : Int) < 2 ^ 1074 := pow_pos two_pos 1074
  have hone := f64Units_le_one h
  rw [f64Units_one] at hone
  have hnonneg : 0 ≤ f64Units v * 65535 / 2 ^ 1074 := by
    rw [f64Units_of_legal h]
    exact Int.ediv_nonneg (Int.mul_nonneg (Int.natCast_nonneg _) (by decide)) hpos.le
  have hproduct : f64Units v * 65535 ≤ 65535 * 2 ^ 1074 := by
    rw [Int.mul_comm 65535]
    exact Int.mul_le_mul_of_nonneg_right hone (by decide)
  have hle := Int.ediv_le_of_le_mul hpos hproduct
  obtain ⟨n, hn⟩ := Int.eq_ofNat_of_zero_le hnonneg
  rw [hn] at hle
  exact ⟨n, by omega, hn⟩

end Rounding

end Sys2Proof.Machine

open Sys2Proof Sys2Proof.Machine

/-- Settles O15: the code is the floor of the product, and an operand that is not legal has none. -/
theorem quantizeAnswersTruncatedProductOrRangeError :
    Obligations.QuantizeAnswersTruncatedProductOrRangeError := by
  intro v s
  refine ⟨fun h => answers_quantize_of_not_legal s (not_legalUnit h), fun h => ?_⟩
  obtain ⟨c, hanswer, hc⟩ := answers_quantize_of_legal s h
  have hpos : (0 : Int) < 2 ^ 1074 := pow_pos two_pos 1074
  rw [f64Floor_eq, Int.ediv_eq_iff_of_pos hpos, quantizeProduct] at hc
  obtain ⟨hle, hlt⟩ := hc
  refine ⟨c, hle, ?_, hanswer⟩
  rwa [Int.add_mul, Int.one_mul]

/-- Settles O16: the patterns are the legal operands. -/
theorem quantizeAcceptsExactlyTheUnitPatterns :
    Obligations.QuantizeAcceptsExactlyTheUnitPatterns := by
  intro v s
  rw [← legalUnit_iff_pattern]
  refine ⟨fun h => ?_, answers_quantize_of_not_legal s⟩
  obtain ⟨c, hanswer, -⟩ := answers_quantize_of_legal s h
  exact ⟨c, hanswer⟩

/-- Settles O18: the two products evaluated. -/
theorem quantizeMeetsTheBoundaryContract : Obligations.QuantizeMeetsTheBoundaryContract := by
  have hzero : LegalUnit f64Zero := (legalUnit_iff_pattern _).2 (.inl (by decide))
  refine ⟨by decide +kernel, by decide +kernel, fun s => ⟨?_, ?_⟩⟩
  · exact answers_code_of_floor s hzero (n := 0) (by decide +kernel)
  · exact answers_code_of_floor s legalUnit_one (n := 65535) (by decide +kernel)

/-- Settles O19: the operands given are evaluated, and every other one lies below one of them. -/
theorem quantizeOfTinyOperands : Obligations.QuantizeOfTinyOperands := by
  intro s
  have hnegZero : LegalUnit 0x8000000000000000#64 := (legalUnit_iff_pattern _).2 (.inr rfl)
  have hfirst : LegalUnit 0x3EF0001000100010#64 := (legalUnit_iff_pattern _).2 (.inl (by decide))
  refine ⟨by decide +kernel, ?_, fun v _ hv => ?_, fun v hv hlt => ?_, by decide +kernel, ?_,
    fun v => answers_zero_of_lt_firstOne s⟩
  · exact answers_zero_of_floor_lt_one s hnegZero (by decide +kernel)
  · exact answers_zero_of_lt_firstOne s (hv.trans (by decide))
  · exact answers_zero_of_floor_lt_one s hv (f64Floor_lt_one hlt)
  · exact answers_code_of_floor s hfirst (n := 1) (by decide +kernel)

/-- Settles O21: the exact product's floor and the number after it are binary64 values, which the
rounding does not pass. -/
theorem quantizeIsWithinOneOfTheExactFloor : Obligations.QuantizeIsWithinOneOfTheExactFloor := by
  intro v s h
  obtain ⟨c, hanswer, hc⟩ := answers_quantize_of_legal s h
  obtain ⟨n, hn, hn'⟩ := exactFloor_lt h
  refine ⟨c, hanswer, ?_⟩
  rw [hn', ← hc]
  obtain hfloor | hfloor := floor_quantizeProduct_of_exact h hn hn'
  · exact .inl hfloor.symm
  · exact .inr hfloor.symm

end

section
/-!
PROOFS. QUANTIZE inverts every code ratio (41_quantizer R74): the error of the rounded k/65535,
scaled by 65535, is below half the spacing of the binary64 values around k.
-/

namespace Sys2Proof.Machine

section RoundingError
variable {num den s R : Nat}

/-- The rounding moves a ratio by at most half a unit of its scale. -/
theorem two_mul_roundMagnitude_error_le (hd : 0 < den) :
    2 * |(num : Int) - (unitsOf (roundMagnitude num den) * den : Nat)|
      ≤ (den * 2 ^ roundScale num den : Nat) := by
  have hD : 0 < den * 2 ^ roundScale num den := Nat.mul_pos hd (Nat.two_pow_pos _)
  obtain ⟨⟨hlow, hhigh⟩, -⟩ := roundHalfEven_spec num _ hD
  have hunits : unitsOf (roundMagnitude num den) * den
      = roundSignificand num den * (den * 2 ^ roundScale num den) := by
    rw [unitsOf_roundMagnitude hd]
    ring
  change 2 * num ≤ (2 * roundSignificand num den + 1) * _ at hlow
  change 2 * roundSignificand num den * _ ≤ _ at hhigh
  rw [Nat.add_mul, Nat.one_mul, Nat.mul_assoc, ← hunits] at hlow
  rw [Nat.mul_assoc, ← hunits] at hhigh
  rw [Int.abs_eq_natAbs]
  omega

theorem roundScale_le (h : num < 2 ^ (53 + s) * den) : roundScale num den ≤ s := by
  have hq : num / den < 2 ^ (53 + s) := Nat.div_lt_of_lt_mul (Nat.mul_comm den _ ▸ h)
  obtain hzero | hpos := Nat.eq_zero_or_pos (num / den)
  · simp [roundScale, hzero]
  · have hlog := (Nat.log2_lt hpos.ne').2 hq
    unfold roundScale
    omega

/-- Around a value with a full significand the binary64 values stand one unit of its scale apart. -/
theorem unitsOf_spacing (hR : 2 ^ 52 < R) (hR' : R < 2 ^ 53) {r : Nat} (hr : r ≠ s * 2 ^ 52 + R) :
    unitsOf r + 2 ^ s ≤ R * 2 ^ s ∨ R * 2 ^ s + 2 ^ s ≤ unitsOf r := by
  obtain ⟨Q, rfl⟩ : ∃ Q, R = Q + 1 := ⟨R - 1, by omega⟩
  obtain hlt | hgt := Nat.lt_or_gt_of_ne hr
  · have hle := unitsOf_strictMono.monotone (show r ≤ s * 2 ^ 52 + Q by omega)
    rw [unitsOf_scaled (by omega) (.inr (by omega))] at hle
    rw [Nat.add_mul, Nat.one_mul]
    exact .inl (Nat.add_le_add_right hle _)
  · have hle := unitsOf_strictMono.monotone (show s * 2 ^ 52 + (Q + 1 + 1) ≤ r by omega)
    rw [unitsOf_scaled (by omega) (.inr (by omega)), Nat.add_mul, Nat.one_mul] at hle
    exact .inr hle

/-- What lies within half a unit of a value with a full significand rounds to it. -/
theorem roundMagnitude_eq_of_close {x : Nat} (hd : 0 < den) (hR : 2 ^ 52 < R) (hR' : R < 2 ^ 53)
    (hclose : 2 * |(x : Int) - (R * 2 ^ s : Nat)| < (2 ^ s : Nat)) :
    roundMagnitude (x * den) den = s * 2 ^ 52 + R := by
  by_contra hne
  obtain ⟨hnearest, -⟩ := roundMagnitude_nearest (num := x * den) hd (s * 2 ^ 52 + R)
  rw [unitsOf_scaled hR'.le (.inr hR.le), Nat.cast_mul x, ← Int.sub_mul, ← Int.sub_mul, abs_mul,
    abs_mul] at hnearest
  have hdist := le_of_mul_le_mul_right hnearest (abs_pos.2 (Int.natCast_ne_zero.2 hd.ne'))
  have hspacing := unitsOf_spacing hR hR' hne
  rw [Int.abs_eq_natAbs] at hclose hdist
  rw [Int.abs_eq_natAbs] at hdist
  omega

end RoundingError

section CodeRatio
variable {j k : Nat}

/-- Below 65535 the ratio of a number under `2 ^ (j + 1)` stays under `2 ^ (j - 15)`. -/
theorem roundScale_ratio_le (hj : j ≤ 15) (hk : k < 65535) (hk' : k < 2 ^ (j + 1)) :
    roundScale (k * 2 ^ 1074) 65535 ≤ j + 1006 := by
  have htwo : 2 ^ j ≤ 2 ^ 15 := Nat.pow_le_pow_right two_pos hj
  rw [pow_succ] at hk'
  have hscaled : k * 2 ^ 15 < 2 ^ j * 65535 := by omega
  have hnum : k * 2 ^ 1074 = k * 2 ^ 15 * 2 ^ 1059 := by
    rw [Nat.mul_assoc, ← pow_add]
  have hden : 2 ^ (53 + (j + 1006)) * 65535 = 2 ^ j * 65535 * 2 ^ 1059 := by
    rw [Nat.mul_right_comm, ← pow_add, show j + 1059 = 53 + (j + 1006) by omega]
  refine roundScale_le ?_
  rw [hnum, hden]
  exact Nat.mul_lt_mul_of_pos_right hscaled (pow_pos two_pos 1059)

/-- The scaled error of the rounded ratio is below half the spacing around `k`. -/
theorem ratio_error_lt (hj : j ≤ 15) (hk : k < 65535) (hk' : k < 2 ^ (j + 1)) :
    2 * |((unitsOf (roundMagnitude (k * 2 ^ 1074) 65535) * 65535 : Nat) : Int)
      - (k * 2 ^ 1074 : Nat)| < (2 ^ (j + 1022) : Nat) := by
  rw [abs_sub_comm]
  refine (two_mul_roundMagnitude_error_le (by decide)).trans_lt (Int.ofNat_lt.2 ?_)
  calc 65535 * 2 ^ roundScale (k * 2 ^ 1074) 65535
      ≤ 65535 * 2 ^ (j + 1006) :=
        Nat.mul_le_mul_left _ (Nat.pow_le_pow_right two_pos (roundScale_ratio_le hj hk hk'))
    _ < 2 ^ 16 * 2 ^ (j + 1006) :=
        Nat.mul_lt_mul_of_pos_right (by decide) (pow_pos two_pos _)
    _ = 2 ^ (j + 1022) := by rw [← pow_add, show 16 + (j + 1006) = j + 1022 by omega]

/-- The rounded ratio scaled by 65535 rounds back to `k`, where `k` is no power of two. -/
theorem roundMagnitude_ratio_product (hj : j ≤ 15) (hk : k < 65535) (hlow : 2 ^ j < k)
    (hhigh : k < 2 ^ (j + 1)) :
    roundMagnitude (unitsOf (roundMagnitude (k * 2 ^ 1074) 65535) * 65535 * 2 ^ 1074) (2 ^ 1074)
      = natMagnitude j k := by
  have hj' : j ≤ 52 := by omega
  have hR : 2 ^ 52 < k * 2 ^ (52 - j) :=
    two_pow_mul_significandScale hj' (i := 0) ▸
      Nat.mul_lt_mul_of_pos_right hlow (pow_pos two_pos _)
  have hR' : k * 2 ^ (52 - j) < 2 ^ 53 :=
    two_pow_mul_significandScale hj' (i := 1) ▸
      Nat.mul_lt_mul_of_pos_right hhigh (pow_pos two_pos _)
  refine roundMagnitude_eq_of_close (pow_pos two_pos 1074) hR hR' ?_
  rw [natMagnitude_scale hj']
  exact ratio_error_lt hj hk hhigh

/-- No code's ratio is above 1.0, and so neither is its rounding. -/
theorem nearestMagnitude_ratio_le (hk : k ≤ 65535) :
    nearestMagnitude (k * 2 ^ 1074) 65535 ≤ 0x3FF0000000000000 := by
  have hone : unitsOf 0x3FF0000000000000 = 2 ^ 1074 := by decide +kernel
  refine nearestMagnitude_le (by decide) (by decide) ?_
  rw [hone, Nat.mul_comm (2 ^ 1074)]
  exact Nat.mul_le_mul_right _ hk

theorem f64Magnitude_ratio (hk : k ≤ 65535) :
    f64Magnitude (f64OfRatio false k 65535) = roundMagnitude (k * 2 ^ 1074) 65535 := by
  have hle := nearestMagnitude_ratio_le hk
  rw [f64Magnitude_ofRatio false (by decide)]
  rw [nearestMagnitude_eq _ _ (by decide), infinityMagnitude] at hle ⊢
  omega

theorem legalUnit_ratio (hk : k ≤ 65535) : LegalUnit (f64OfRatio false k 65535) := by
  refine (legalUnit_iff _).2 ⟨?_, fun hsign => ?_⟩
  · rw [f64Magnitude_ofRatio false (by decide)]
    exact nearestMagnitude_ratio_le hk
  · rw [f64Sign_ofRatio] at hsign
    exact absurd hsign Bool.false_ne_true

/-- Where the product is `k` itself, so is its floor. -/
theorem floor_quantizeProduct_ratio (hj : j ≤ 15) (hk : k < 65535) (hlow : 2 ^ j < k)
    (hhigh : k < 2 ^ (j + 1)) :
    f64Floor (quantizeProduct (f64OfRatio false k 65535)) = k := by
  have hinfinity := natMagnitude_le_infinity (show j ≤ 16 by omega) hhigh.le
  rw [f64Floor_eq, f64Units_quantizeProduct_eq (legalUnit_ratio hk.le), f64Magnitude_ratio hk.le,
    nearestMagnitude_eq _ _ (pow_pos two_pos 1074), roundMagnitude_ratio_product hj hk hlow hhigh,
    min_eq_left hinfinity, unitsOf_natMagnitude (by omega) hlow.le hhigh.le, Nat.cast_mul,
    Nat.cast_pow, Nat.cast_ofNat]
  exact Int.mul_ediv_cancel _ (pow_ne_zero 1074 two_ne_zero)

/-- At a power of two the values below stand half as far apart, so the bound is not enough; the
sixteen powers are evaluated. -/
theorem floor_quantizeProduct_ratio_two_pow (hj : j < 16) :
    f64Floor (quantizeProduct (f64OfRatio false (2 ^ j) 65535)) = (2 ^ j : Nat) := by
  revert j
  decide +kernel

theorem floor_quantizeProduct_ratio_of_le (hk : k ≤ 65535) :
    f64Floor (quantizeProduct (f64OfRatio false k 65535)) = k := by
  obtain rfl | hpos := Nat.eq_zero_or_pos k
  · decide +kernel
  obtain rfl | hlt := hk.eq_or_lt
  · decide +kernel
  have hlow : 2 ^ Nat.log2 k ≤ k := Nat.log2_self_le hpos.ne'
  have hj : Nat.log2 k < 16 := (Nat.log2_lt hpos.ne').2 (by omega)
  obtain hpow | hbetween := hlow.eq_or_lt
  · rw [← hpow]
    exact floor_quantizeProduct_ratio_two_pow hj
  · exact floor_quantizeProduct_ratio (by omega) hlt hbetween Nat.lt_log2_self

end CodeRatio

end Sys2Proof.Machine

open Sys2Proof Sys2Proof.Machine

/-- Settles O20: the product of the ratio's binary64 is `k` itself. -/
theorem quantizeInvertsEveryCodeRatio : Obligations.QuantizeInvertsEveryCodeRatio :=
  fun _ s hk => answers_code_of_floor s (legalUnit_ratio hk)
    (floor_quantizeProduct_ratio_of_le hk)

end
